-- ==== Sys2Proof/Word.lean ====
section
/-! DEFINITION. Words, bytes, blocks and the hash value: the widths of R6, with no operation on them. -/

namespace Sys2Proof

/-- A 32-bit word: WORD of R6. -/
abbrev Word := BitVec 32

/-- A byte (R9). -/
abbrev Byte := BitVec 8

/-- A block, or the block buffer: 64 bytes (BLOCK of R6, R23). -/
abbrev Block := Vector Byte 64

/-- The five state words `H[0..4]` (R20). -/
abbrev Hash := Vector Word 5

/-- The schedule window `W[0..15]` (R30). -/
abbrev Window := Vector Word 16

end Sys2Proof
end

