-- ==== Sys2Proof/Syntax.lean ====
section
/-! DEFINITION. The three commands of the opcode table (R73, R76), as syntax. -/

namespace Sys2Proof

/-- One constructor per row of spec/opcode_table.json. The payload is no operand: it travels with the command (R70). -/
inductive Instr where
  /-- INIT, R130. It has no operand (R72). -/
  | init
  /-- UPDATE, R132. `len` is the signed LEN field (R72). -/
  | update (len : Int)
  /-- FINALIZE, R150. It has no operand (R72). -/
  | finalize
  deriving DecidableEq, Repr

end Sys2Proof
end

