-- ==== Sys2Proof/WellFormed.lean ====
section
/-! DEFINITION. Which instructions the encoding can express. -/

namespace Sys2Proof

/-- The range of a 32-bit two's complement LEN: −2^31 .. 2^31 − 1 (R72). -/
def lenFits (len : Int) : Bool := decide (-2147483648 ≤ len) && decide (len ≤ 2147483647)

/-- An instruction is well formed when its operand fits its field (R72). INIT and FINALIZE have no operand. -/
def Instr.wf : Instr → Bool
  | .init => true
  | .update len => lenFits len
  | .finalize => true

end Sys2Proof
end

