-- ==== Sys2Proof/Decode.lean ====
section
/-! DEFINITION. The decoder of R76, total on every header and every payload length and rejecting by name; then the encoder,
written from R71 and R73. -/

namespace Sys2Proof

/-- Why a header is ILLEGAL (R76, R171). The core answers ERR_ILLEGAL for each of them alike. -/
inductive Illegal where
  /-- RSVD is not zero. -/
  | reservedBits
  /-- OP is 0x00 or in 0x04..0xFF. -/
  | reservedOp
  /-- LEN is not zero on INIT or FINALIZE. -/
  | lenNotZero
  /-- A payload on INIT or FINALIZE. -/
  | payloadNotEmpty
  deriving DecidableEq, Repr

/-- OP = HDR[7:0] (R71). -/
def hdrOp (hdr : BitVec 64) : BitVec 8 := hdr.extractLsb' 0 8

/-- RSVD = HDR[31:8] (R71). -/
def hdrRsvd (hdr : BitVec 64) : BitVec 24 := hdr.extractLsb' 8 24

/-- LEN = HDR[63:32] (R71). -/
def hdrLen (hdr : BitVec 64) : BitVec 32 := hdr.extractLsb' 32 32

/-- `sint32(v)`: a 32-bit value read as two's complement (R7, R72). -/
def sint32 (v : BitVec 32) : Int := v.toInt

/-- INIT and FINALIZE: LEN must be zero and the payload empty (R76). -/
def decodeBare (i : Instr) (hdr : BitVec 64) (n : Nat) : Except Illegal Instr :=
  if hdrLen hdr ≠ 0 then .error .lenNotZero
  else if n ≠ 0 then .error .payloadNotEmpty
  else .ok i

/-- `decode(HDR, n)` of R76: RSVD is checked first, then OP. UPDATE's LEN is not checked against n here. -/
def decode (hdr : BitVec 64) (n : Nat) : Except Illegal Instr :=
  if hdrRsvd hdr ≠ 0 then .error .reservedBits
  else if hdrOp hdr = 0x01 then decodeBare .init hdr n
  else if hdrOp hdr = 0x02 then .ok (.update (sint32 (hdrLen hdr)))
  else if hdrOp hdr = 0x03 then decodeBare .finalize hdr n
  else .error .reservedOp

/-- The decoder on an opcode-table word: the header is one 64-bit value numbered as the table numbers it (R55, R71), bits
above `nbits` are zero, and the payload is empty. -/
def decodeTableWord (nbits w : Nat) : Option Instr :=
  match decode (BitVec.ofNat 64 (w % 2 ^ nbits)) 0 with
  | .ok i => some i
  | .error _ => none

/-- The OP values of R73. -/
def Instr.op : Instr → BitVec 8
  | .init => 0x01
  | .update _ => 0x02
  | .finalize => 0x03

/-- The LEN field: UPDATE's len as 32 bits, zero for INIT and FINALIZE (R71, R80). -/
def Instr.lenField : Instr → BitVec 32
  | .init => 0
  | .update len => BitVec.ofInt 32 len
  | .finalize => 0

/-- The one header format of R71: LEN, RSVD = 0, OP. -/
def encode (i : Instr) : BitVec 64 := i.lenField ++ (0 : BitVec 24) ++ i.op

/-- One row of spec/opcode_table.json: the header bits it fixes, and their values. -/
structure OpcodeRow where
  mnemonic : String
  mask : BitVec 64
  value : BitVec 64
  deriving DecidableEq, Repr

/-- spec/opcode_table.json, the machine-readable copy of R73 and R76. -/
def opcodeTable : List OpcodeRow :=
  [⟨"INIT", 0xFFFFFFFFFFFFFFFF, 0x0000000000000001⟩,
   ⟨"UPDATE", 0x00000000FFFFFFFF, 0x0000000000000002⟩,
   ⟨"FINALIZE", 0xFFFFFFFFFFFFFFFF, 0x0000000000000003⟩]

/-- The instruction's row of the table. -/
def Instr.mnemonic : Instr → String
  | .init => "INIT"
  | .update _ => "UPDATE"
  | .finalize => "FINALIZE"

/-- A header is of a row when its masked bits have the row's values. -/
def OpcodeRow.admits (r : OpcodeRow) (hdr : BitVec 64) : Bool := decide (hdr &&& r.mask = r.value)

end Sys2Proof
end

