-- ==== Sys2Proof/Config.lean ====
section
/-! DEFINITION. The values the spec leaves unspecified, as constants with no body (93_implementation_defined.md U6, U7, U8:
"any value"). BUS_BINDING (D27) is OPEN and nothing in the model depends on it, so it has no constant here (log 13). -/

namespace Sys2Proof

/-- The unspecified value of a 32-bit register: `draw` is the draw number (`State.draws`), `slot` says which register,
`held` is what the pseudocode leaves in it. Taking `held` admits the part that simply keeps it. R32, R40; logs 5, 7. -/
opaque Config.freeWord (draw slot : Nat) (held : Word) : Word

/-- The unspecified value of one byte of BUF, at `offset`. R25, R40; logs 5, 6. -/
opaque Config.freeByte (draw offset : Nat) (held : Byte) : Byte

/-- The unspecified value of the round index t. R32; log 7. -/
opaque Config.freeRound (draw : Nat) (held : Fin 80) : Fin 80

end Sys2Proof
end

