-- ==== Sys2Proof/Machine/State.lean ====
section
/-! DEFINITION. The state of SHA1-CORE: the Context (R20 to R25), the life-cycle register (R26), the compressor's working
registers (R29 to R31), and the two ports (R70, R74) as plain data. -/

namespace Sys2Proof.Machine

/-- The life-cycle register's four states (R26). -/
inductive Fsm where
  | uninit
  | ready
  | accum
  | final
  deriving DecidableEq, Repr

/-- The response statuses (R75). -/
inductive Status where
  /-- The command completed. -/
  | ok
  /-- The header is not a legal command (R171). -/
  | errIllegal
  /-- UPDATE's len is negative or exceeds n (R172). -/
  | errArg
  /-- The command is not allowed in the current FSM state (R173). -/
  | errState
  deriving DecidableEq, Repr

/-- A command as the transport delivers it (R70): n is the payload's length. -/
structure Command where
  hdr : BitVec 64
  payload : List Byte
  deriving DecidableEq, Repr

/-- A response (R74). `digest` is empty except on an OK FINALIZE. -/
structure Response where
  status : Status
  digest : List Byte
  deriving DecidableEq, Repr

/-- What the host does to the core: it presents a command (R70), or resets the core, possibly while a command it presented
is in progress (R200, R201). -/
inductive Input where
  | command (c : Command)
  | reset (abandoned : Option Command)
  deriving DecidableEq, Repr

/-- The compressor's working registers: `a..e` (R29), the schedule window `W[0..15]` (R30), the round index `t` (R31). -/
structure Work where
  a : Word
  b : Word
  c : Word
  d : Word
  e : Word
  w : Window
  t : Fin 80
  deriving DecidableEq, Repr

/-- The machine's state. -/
structure State where
  /-- `H[0..4]`, R20. -/
  h : Hash
  /-- COUNT_HI, bits 63..32 of COUNT, R21. -/
  countHi : Word
  /-- COUNT_LO, bits 31..0 of COUNT, R21. -/
  countLo : Word
  /-- `BUF[0..63]`, R23. -/
  buf : Block
  /-- FSM, R26. -/
  fsm : Fsm
  /-- The working registers, R29 to R31. -/
  work : Work
  /-- The command accepted and not yet answered (R66, R204). Log 3. -/
  inFlight : Option Command
  /-- What the host will do, first event first. Log 1. -/
  input : List Input
  /-- The responses sent, first one first (R63, R74). Log 2. -/
  responses : List Response
  /-- The MODEL's own: how many draws of free values were made. Log 8. -/
  draws : Nat
  /-- The MODEL's own: how many compressions were performed (R208). Log 8. -/
  compressions : Nat
  deriving DecidableEq, Repr

/-- The machine after hardware reset: FSM is UNINIT (R40, R200). R40 leaves every other register unspecified; the zeros here are
the model's (DESIGN CHOICE, log 4), and no rule of the spec gives them. -/
def State.reset : State where
  h := #v[0, 0, 0, 0, 0]
  countHi := 0
  countLo := 0
  buf := #v[0, 0, 0, 0, 0, 0, 0, 0, 0, 0, 0, 0, 0, 0, 0, 0, 0, 0, 0, 0, 0, 0, 0, 0, 0, 0, 0, 0, 0, 0, 0, 0,
            0, 0, 0, 0, 0, 0, 0, 0, 0, 0, 0, 0, 0, 0, 0, 0, 0, 0, 0, 0, 0, 0, 0, 0, 0, 0, 0, 0, 0, 0, 0, 0]
  fsm := .uninit
  work := ⟨0, 0, 0, 0, 0, #v[0, 0, 0, 0, 0, 0, 0, 0, 0, 0, 0, 0, 0, 0, 0, 0], 0⟩
  inFlight := none
  input := []
  responses := []
  draws := 0
  compressions := 0

/-- Why a step can stop with a fault. -/
inductive Fault where
  /-- Raised by FINALIZE, in READY or ACCUM, when COUNT is no multiple of 8: R150's `while COUNT[8:0] != 448` then never ends, so the
  command has no next state. Safe: R22 rules such a state out, and no run from reset reaches one. Log 9. -/
  | paddingNeverEnds
  deriving DecidableEq, Repr

/-- Why a step can be refused. -/
inductive Refusal where
  /-- Raised by an arm of `exec` whose instruction has no meaning yet; no arm is left so. Safe: the run stops. -/
  | notModelled (mnemonic : String)
  deriving DecidableEq, Repr

end Sys2Proof.Machine
end

