-- ==== Sys2Proof/Machine/Operands.lean ====
section
/-! DEFINITION. What a command reads: the payload (R70, R54, R78), COUNT and the fill j (R21, R24), and the byte order of words
(R51, R52, R53). -/

namespace Sys2Proof.Machine

/-- `be32(p, q, r, s)`: p is the most significant byte (R9, R51). -/
def be32 (p q r s : Byte) : Word := p ++ q ++ r ++ s

/-- `bytes_be32(w)`: the most significant byte first (R9). -/
def bytesBe32 (w : Word) : List Byte :=
  [w.extractLsb' 24 8, w.extractLsb' 16 8, w.extractLsb' 8 8, w.extractLsb' 0 8]

/-- The 8 bytes of the length field (R52). -/
def lengthBytes (l : BitVec 64) : List Byte :=
  bytesBe32 (l.extractLsb' 32 32) ++ bytesBe32 (l.extractLsb' 0 32)

/-- The digest's bytes in order (R53, R152). -/
def serialize (h : Hash) : List Byte :=
  bytesBe32 h[0] ++ bytesBe32 h[1] ++ bytesBe32 h[2] ++ bytesBe32 h[3] ++ bytesBe32 h[4]

/-- The 64 bytes at the front of a byte sequence: the payload window `D[i..i+64)` when `d` is `D[i..)` (R69). Every use has at least
64 bytes in `d`, so the zero beyond its end is never read (`window_getElem` in Laws). -/
def window (d : List Byte) : Block := Vector.ofFn fun i : Fin 64 => d.getD i.val 0

/-- PAYLOAD of the command in progress (R70); empty when there is none. -/
def State.payload (s : State) : List Byte :=
  match s.inFlight with
  | some c => c.payload
  | none => []

/-- `COUNT = {COUNT_HI, COUNT_LO}` (R21). -/
def State.count (s : State) : BitVec 64 := s.countHi ++ s.countLo

/-- `j = COUNT[8:3]`, the number of valid bytes in BUF (R24). -/
def State.fill (s : State) : Nat := (s.count.extractLsb' 3 6).toNat

/-- `COUNT[8:0]`, which is COUNT mod 512 (R150). -/
def State.countMod512 (s : State) : Nat := (s.count.extractLsb' 0 9).toNat

/-- The valid prefix `BUF[0..j)` (R24). -/
def State.validBytes (s : State) : List Byte := s.buf.toList.take s.fill

end Sys2Proof.Machine
end

