-- ==== Sys2Proof/Machine/Flags.lean ====
section
/-! DEFINITION. The core has no flags (R35). Here stand what it has in their place: the status of a response with its code (R75),
the checks that choose it (R171 to R175), the code of FSM (R26), and the carry of COUNT (R133). -/

namespace Sys2Proof.Machine

/-- The status byte on the response port (R75). -/
def Status.code : Status → BitVec 8
  | .ok => 0x00
  | .errIllegal => 0x01
  | .errArg => 0x02
  | .errState => 0x03

/-- The 2-bit code of FSM, visible at no port (R26). -/
def Fsm.code : Fsm → BitVec 2
  | .uninit => 0b00
  | .ready => 0b01
  | .accum => 0b10
  | .final => 0b11

/-- The FSM check of UPDATE and FINALIZE (R173). -/
def stateError : Fsm → Option Status
  | .uninit => some .errState
  | .ready => none
  | .accum => none
  | .final => some .errState

/-- The length check of UPDATE (R172). -/
def argError (len : Int) (n : Nat) : Option Status :=
  if len < 0 ∨ (n : Int) < len then some .errArg else none

/-- UPDATE's checks in the priority of R175: FSM before len. -/
def updateError (f : Fsm) (len : Int) (n : Nat) : Option Status :=
  match stateError f with
  | some e => some e
  | none => argError len n

/-- FINALIZE's check (R150). -/
def finalizeError (f : Fsm) : Option Status := stateError f

/-- `inc = 8·len`, a 64-bit value (R133). -/
def bitIncrement (len : Nat) : BitVec 64 := BitVec.ofNat 64 (8 * len)

/-- `s = COUNT_LO + inc[31:0]`, exact in 33 bits (R133). -/
def lowSum (lo : Word) (len : Nat) : BitVec 33 :=
  lo.setWidth 33 + ((bitIncrement len).extractLsb' 0 32).setWidth 33

/-- The new COUNT_LO: `s mod 2^32` (R133). -/
def addCountLo (lo : Word) (len : Nat) : Word := (lowSum lo len).setWidth 32

/-- The new COUNT_HI: `COUNT_HI + inc[63:32] + s[32]` modulo 2^32; the carry out is discarded (R133). -/
def addCountHi (hi lo : Word) (len : Nat) : Word :=
  hi + (bitIncrement len).extractLsb' 32 32 + ((lowSum lo len).extractLsb' 32 1).setWidth 32

end Sys2Proof.Machine
end

