-- ==== Sys2Proof/Machine/Ops.lean ====
section
/-! DEFINITION. The operations every command shares: accepting a command, reporting an error, answering, drawing unspecified values,
reset. This hardware's exception mechanism is the response status alone: an error saves nothing, changes no mode and goes
nowhere (R170, R177), and there is no return from it (R178). -/

namespace Sys2Proof.Machine

/-- The core accepts a command, taking its payload at that moment (R66, R204). -/
def accept (c : Command) (rest : List Input) (s : State) : State :=
  { s with inFlight := some c, input := rest }

/-- Unspecified values for the working registers (R32). Slots: a..e are 7..11, `W[i]` is 12 + i. -/
def drawWork (draw : Nat) (x : Work) : Work where
  a := Config.freeWord draw 7 x.a
  b := Config.freeWord draw 8 x.b
  c := Config.freeWord draw 9 x.c
  d := Config.freeWord draw 10 x.d
  e := Config.freeWord draw 11 x.e
  w := Vector.ofFn fun i : Fin 16 => Config.freeWord draw (12 + i.val) x.w[i]
  t := Config.freeRound draw x.t

/-- The bytes of BUF from `j` on take unspecified values; those before it stay (R25). -/
def drawStale (draw j : Nat) (buf : Block) : Block :=
  Vector.ofFn fun i : Fin 64 => if i.val < j then buf[i] else Config.freeByte draw i.val buf[i]

/-- Unspecified values for H (R40). Slots 0..4. -/
def drawHash (draw : Nat) (h : Hash) : Hash :=
  Vector.ofFn fun i : Fin 5 => Config.freeWord draw i.val h[i]

/-- The bytes of BUF beyond the valid prefix become unspecified, as they are between commands (R25). Log 6. -/
def State.settleBuf (s : State) : State := { s with buf := drawStale s.draws s.fill s.buf }

/-- The core sends the one response of the command in progress and is then between commands (R74, R204), where the working
registers are unspecified (R32). Log 7. -/
def respond (st : Status) (dg : List Byte) (s : State) : State :=
  { s with
    inFlight := none
    responses := s.responses ++ [⟨st, dg⟩]
    work := drawWork s.draws s.work
    draws := s.draws + 1 }

/-- `raise ERR_X` (R10): the command ends with that status and no DIGEST (R74). Every check stands before every write, so H, COUNT,
BUF and FSM are those from before the command (R174). -/
def raise (e : Status) (s : State) : State := respond e [] s

/-- The reset event (R200): FSM is UNINIT, every other register is unspecified (R40), and a command in progress is abandoned without a
response (R201). Slots 5 and 6 are COUNT_HI and COUNT_LO. Logs 5, 11. -/
def resetEvent (rest : List Input) (s : State) : State :=
  { s with
    h := drawHash s.draws s.h
    countHi := Config.freeWord s.draws 5 s.countHi
    countLo := Config.freeWord s.draws 6 s.countLo
    buf := drawStale s.draws 0 s.buf
    fsm := .uninit
    work := drawWork s.draws s.work
    inFlight := none
    input := rest
    draws := s.draws + 1 }

/-- `FSM <- f` (R26). -/
def State.setFsm (f : Fsm) (s : State) : State := { s with fsm := f }

/-- The host presents a command: it is the next thing the core accepts (R70). -/
def State.present (c : Command) (s : State) : State := { s with input := .command c :: s.input }

/-- `decode(HDR, |PAYLOAD|)` of a command (R76). -/
def Command.decode (c : Command) : Except Illegal Instr := Sys2Proof.decode c.hdr c.payload.length

/-- The command that carries an instruction: its header from the encoder, with a payload (R70, R80). -/
def Command.of (i : Instr) (payload : List Byte) : Command := ⟨encode i, payload⟩

/-- The command whose header is an opcode-table word of `nbits` bits, the bits above it zero, with an empty payload (R55). -/
def Command.ofTableWord (nbits w : Nat) : Command := ⟨BitVec.ofNat 64 (w % 2 ^ nbits), []⟩

end Sys2Proof.Machine
end

