-- ==== Sys2Proof/Machine/Compressor.lean ====
section
/-! DEFINITION. The block compressor (40_compressor.md). Its operations are internal: none has an opcode, raises an error or
writes a flag. -/

namespace Sys2Proof.Machine

/-- `rotl(x, n)`, for 1 ≤ n ≤ 31; the core uses n = 1, 5 and 30 (R100). -/
def rotl (x : Word) (n : Nat) : Word := (x <<< n) ||| (x >>> (32 - n))

/-- `f_ch` (R102). -/
def fCh (b c d : Word) : Word := (b &&& (c ^^^ d)) ^^^ d

/-- `f_par` (R102). -/
def fPar (b c d : Word) : Word := b ^^^ c ^^^ d

/-- `f_maj` (R102). -/
def fMaj (b c d : Word) : Word := (b &&& c) ||| (b &&& d) ||| (c &&& d)

/-- `f_t`: the round function of each range (R101, R102). -/
def roundF (t : Nat) : Word → Word → Word → Word :=
  if t < 20 then fCh else if t < 40 then fPar else if t < 60 then fMaj else fPar

/-- `K_t` (R103). -/
def roundK (t : Nat) : Word :=
  if t < 20 then 0x5A827999 else if t < 40 then 0x6ED9EBA1 else if t < 60 then 0x8F1BBCDC else 0xCA62C1D6

/-- Block load (R104): `W[i] <- be32(B[4i], B[4i+1], B[4i+2], B[4i+3])`. -/
def loadWindow (src : Block) : Window :=
  Vector.ofFn fun i : Fin 16 =>
    be32 src[4 * i.val] src[4 * i.val + 1] src[4 * i.val + 2] src[4 * i.val + 3]

/-- The window's slot `k mod 16` (R105). -/
def slot (k : Nat) : Fin 16 := ⟨k % 16, Nat.mod_lt _ (by decide)⟩

/-- Schedule expansion (R105): `W[t mod 16]` is rewritten from four words of the window, itself among them. -/
def expand (t : Nat) (w : Window) : Window :=
  w.set (slot t) (rotl (w.get (slot (t + 13)) ^^^ w.get (slot (t + 8)) ^^^ w.get (slot (t + 2)) ^^^ w.get (slot t)) 1)

/-- The working registers with the schedule word of round t in place: expanded from round 16 on (R101, R105). -/
def schedule (t : Nat) (x : Work) : Work := if 16 ≤ t then { x with w := expand t x.w } else x

/-- `ROUND(t)` (R107), its schedule word read from `W[t mod 16]`. -/
def round (t : Nat) (x : Work) : Work :=
  { x with
    a := rotl x.a 5 + roundF t x.b x.c x.d + x.e + roundK t + x.w.get (slot t)
    b := x.a
    c := rotl x.b 30
    d := x.c
    e := x.d
    t := Fin.ofNat 80 t }

/-- Rounds 0 .. n − 1 in order, each with its schedule word (R109). -/
def runRounds : Nat → Work → Work
  | 0, x => x
  | n + 1, x => round n (schedule n (runRounds n x))

/-- The working registers at the start of a compression: W from the block, a..e from H (R109). -/
def startWork (h : Hash) (src : Block) : Work where
  a := h[0]
  b := h[1]
  c := h[2]
  d := h[3]
  e := h[4]
  w := loadWindow src
  t := 0

/-- The five final additions, each modulo 2^32 (R109). -/
def addWork (h : Hash) (x : Work) : Hash := #v[h[0] + x.a, h[1] + x.b, h[2] + x.c, h[3] + x.d, h[4] + x.e]

/-- `compress : H × B → H`, total and depending on nothing else (R110). -/
def compressHash (h : Hash) (src : Block) : Hash := addWork h (runRounds 80 (startWork h src))

/-- COMPRESS (R109): writes H, all five words together at the end (R38), and the working registers. -/
def compress (src : Block) (s : State) : State :=
  { s with
    h := compressHash s.h src
    work := runRounds 80 (startWork s.h src)
    compressions := s.compressions + 1 }

end Sys2Proof.Machine
end

