-- ==== Sys2Proof/Machine/Feeder.lean ====
section
/-! DEFINITION. The stream feeder (41_feeder.md): INIT, absorb, UPDATE. -/

namespace Sys2Proof.Machine

/-- The initial state words (R28). -/
def hInit : Hash := #v[0x67452301, 0xEFCDAB89, 0x98BADCFE, 0x10325476, 0xC3D2E1F0]

/-- INIT's writes before FSM (R130): H and COUNT. BUF is not written. -/
def initContext (s : State) : State := { s with h := hInit, countHi := 0, countLo := 0 }

/-- INIT (R130), accepted in every FSM state. j is then 0, so all of BUF is beyond the valid prefix and unspecified (R25). -/
def execInit (s : State) : Host.Outcome State Fault Refusal :=
  .next (respond .ok [] (((initContext s).setFsm .ready).settleBuf))

/-- `BUF[off + k] <- D[k]` for each byte of `d` in turn (R131). -/
def writeBytes (off : Nat) : List Byte → Block → Block
  | [], buf => buf
  | x :: xs, buf => writeBytes (off + 1) xs (buf.setIfInBounds off x)

/-- The feeder writes bytes into BUF at an offset (R23, R131). -/
def State.writeBuf (off : Nat) (d : List Byte) (s : State) : State := { s with buf := writeBytes off d s.buf }

/-- `COUNT <- COUNT + 8·len` (R133). -/
def State.addCount (len : Nat) (s : State) : State :=
  { s with countHi := addCountHi s.countHi s.countLo len, countLo := addCountLo s.countLo len }

/-- The loop `while i + 63 < len: compress(D[i..i+64)); i <- i + 64` of R131, on what is left of D. It answers the remainder and the
state. One iteration takes 64 bytes, so as many iterations as D has bytes are enough (`stream_rest_length` in Laws). -/
def stream : Nat → List Byte → State → List Byte × State
  | 0, d, s => (d, s)
  | fuel + 1, d, s => if 63 < d.length then stream fuel (d.drop 64) (compress (window d) s) else (d, s)

/-- `absorb(D, len)` of R131, where `d` is `D[0..len)`. -/
def absorb (d : List Byte) (s : State) : State :=
  let j := s.fill
  if 63 < j + d.length then
    let filled := s.writeBuf j (d.take (64 - j))
    let streamed := stream d.length (d.drop (64 - j)) (compress filled.buf filled)
    (streamed.2.writeBuf 0 streamed.1).addCount d.length
  else
    (s.writeBuf j d).addCount d.length

/-- UPDATE past its checks (R132): absorbs `PAYLOAD[0..len)` (R78). With len = 0 nothing but FSM is written (R131, R132), so BUF keeps
even its bytes beyond the valid prefix. -/
def updateContext (len : Nat) (s : State) : State :=
  if len = 0 then s.setFsm .accum
  else ((absorb (s.payload.take len) s).setFsm .accum).settleBuf

/-- UPDATE (R132). -/
def execUpdate (len : Int) (s : State) : Host.Outcome State Fault Refusal :=
  match updateError s.fsm len s.payload.length with
  | some e => .next (raise e s)
  | none => .next (respond .ok [] (updateContext len.toNat s))

end Sys2Proof.Machine
end

