-- ==== Sys2Proof/Machine/Finalizer.lean ====
section
/-! DEFINITION. The finalizer (42_finalizer.md): FINALIZE. -/

namespace Sys2Proof.Machine

/-- The loop `while COUNT[8:0] != 448: absorb(x"00", 1)` of R150. `none` when the loop has not ended within `fuel` iterations. -/
def padZeros : Nat → State → Option State
  | 0, s => if s.countMod512 = 448 then some s else none
  | fuel + 1, s => if s.countMod512 = 448 then some s else padZeros fuel (absorb [0x00] s)

/-- The padding of R150: the marker, the zero bytes, and the length field of the count L at entry. From a COUNT that is a multiple of 8
the loop ends within 63 iterations (R151); from any other it never ends (log 9). -/
def padMessage (s : State) : Option State :=
  match padZeros 63 (absorb [0x80] s) with
  | some p => some (absorb (lengthBytes s.count) p)
  | none => none

/-- `digest()` (R152). -/
def State.digest (s : State) : List Byte := serialize s.h

/-- FINALIZE after the padding (R150): FSM, and the response with the digest. j is 0, so all of BUF is then unspecified (R153). -/
def finish (p : State) : State := respond .ok p.digest ((p.setFsm .final).settleBuf)

/-- FINALIZE (R150). -/
def execFinalize (s : State) : Host.Outcome State Fault Refusal :=
  match finalizeError s.fsm with
  | some e => .next (raise e s)
  | none =>
    match padMessage s with
    | some p => .next (finish p)
    | none => .fault .paddingNeverEnds

end Sys2Proof.Machine
end

