-- ==== Sys2Proof/Machine/Step.lean ====
section
/-! DEFINITION. One step of the core: the next event at its port, performed whole (R12, R59, R63). -/

namespace Sys2Proof.Machine

/-- `execute(HDR, PAYLOAD)` of R76, on a state that has accepted the command. -/
def execute (c : Command) (s : State) : Host.Outcome State Fault Refusal :=
  match c.decode with
  | .ok i => exec i s
  | .error _ => .next (raise .errIllegal s)

/-- One step. With nothing presented the core holds its state (R187, log 12). -/
def step (s : State) : Host.Outcome State Fault Refusal :=
  match s.input with
  | [] => .next s
  | .command c :: rest => execute c (accept c rest s)
  | .reset _ :: rest => .next (resetEvent rest s)

/-- The host presents one command, whose header is an opcode-table word and whose payload is empty: the very next step accepts and runs
it (log 1). -/
def State.withFetchWord (s : State) (nbits w : Nat) : State := s.present (Command.ofTableWord nbits w)

end Sys2Proof.Machine
end

