-- ==== Sys2Proof/Machine/Message.lean ====
section
/-! DEFINITION. What the commands add up to over a whole message, as the spec writes it: the message invariant (R135), padding (R151,
R154), the closed form of the digest (R154), the FSM table (R27), the schedule word a round uses (R105, R106) and the source's
unrolled round (R108). The machine does not call these; statements compare it with them. -/

namespace Sys2Proof.Machine

/-- The first n successive 64-byte blocks of a byte sequence (R135). -/
def blocks : Nat → List Byte → List Block
  | 0, _ => []
  | n + 1, d => window d :: blocks n (d.drop 64)

/-- `compress*`: compress folded over the successive whole 64-byte blocks of `d`, from the left (R135). -/
def compressStar (h : Hash) (d : List Byte) : Hash := (blocks (d.length / 64) d).foldl compressHash h

/-- The bytes of `m` in whole blocks: `M[0..64·⌊m/64⌋)` (R135). -/
def wholeBlocks (m : List Byte) : List Byte := m.take (64 * (m.length / 64))

/-- The unprocessed tail of `m`: `M[64·⌊m/64⌋..m)` (R24, R135). -/
def tailBytes (m : List Byte) : List Byte := m.drop (64 * (m.length / 64))

/-- The message bit-length as COUNT holds it: 8·m, modulo 2^64 (R133). -/
def bitLength (m : List Byte) : BitVec 64 := BitVec.ofNat 64 (8 * m.length)

/-- R135: the Context is that of the message `m` absorbed since INIT. Stated without R135's bound 8·m < 2^64: COUNT then wraps as R133
says, and j is m mod 64 still. -/
structure Holds (s : State) (m : List Byte) : Prop where
  count : s.count = bitLength m
  hash : s.h = compressStar hInit (wholeBlocks m)
  valid : s.validBytes = tailBytes m

/-- How many zero bytes FINALIZE absorbs from fill r (R151). -/
def zeroCount (r : Nat) : Nat := (55 + 64 - r % 64) % 64

/-- How many padding bytes FINALIZE absorbs from fill r (R151). -/
def padCount (r : Nat) : Nat := 1 + zeroCount r + 8

/-- `pad(M)` (R154). -/
def pad (m : List Byte) : List Byte :=
  m ++ [0x80] ++ List.replicate (zeroCount m.length) 0x00 ++ lengthBytes (bitLength m)

/-- The closed form of the digest (R154). -/
def sha1 (m : List Byte) : List Byte := serialize (compressStar hInit (pad m))

/-- The transition table of R27 for the three commands: the next FSM and the status. `n` is the payload's length; UPDATE's arguments are
legal when 0 ≤ len ≤ n. -/
def fsmTable : Fsm → Instr → Nat → Fsm × Status
  | .uninit, .init, _ => (.ready, .ok)
  | .uninit, .update _, _ => (.uninit, .errState)
  | .uninit, .finalize, _ => (.uninit, .errState)
  | .ready, .init, _ => (.ready, .ok)
  | .ready, .update len, n => if 0 ≤ len ∧ len ≤ (n : Int) then (.accum, .ok) else (.ready, .errArg)
  | .ready, .finalize, _ => (.final, .ok)
  | .accum, .init, _ => (.ready, .ok)
  | .accum, .update len, n => if 0 ≤ len ∧ len ≤ (n : Int) then (.accum, .ok) else (.accum, .errArg)
  | .accum, .finalize, _ => (.final, .ok)
  | .final, .init, _ => (.ready, .ok)
  | .final, .update _, _ => (.final, .errState)
  | .final, .finalize, _ => (.final, .errState)

/-- `s_t` as the compressor of R109 uses it: the slot t mod 16 once round t's expansion is done (R105). -/
def usedWord (h : Hash) (src : Block) (t : Nat) : Word :=
  (schedule t (runRounds t (startWork h src))).w.get (slot t)

/-- The source's unrolled round in place, before the roles rotate: role e takes the sum and role b is rotated (R108). -/
def roundInPlace (t : Nat) (x : Work) : Work :=
  { x with
    e := x.e + roundF t x.b x.c x.d + x.w.get (slot t) + roundK t + rotl x.a 5
    b := rotl x.b 30
    t := Fin.ofNat 80 t }

/-- The roles rotate by one: the new (a, b, c, d, e) are the old (e, a, b, c, d) (R108). -/
def rotateRoles (x : Work) : Work := { x with a := x.e, b := x.a, c := x.b, d := x.c, e := x.d }

end Sys2Proof.Machine
end

