-- ==== Sys2Proof/Machine/HostSide.lean ====
section
/-! DEFINITION. What the spec says of the host: issuing commands and stopping at the first that is not OK (R81), the data and command
forms of the text syntax with their encodings (R80), and the reading of one line of it. None of it is in the core. -/

namespace Sys2Proof.Machine

/-- The status of the last response sent, if one was. -/
def State.lastStatus (s : State) : Option Status := s.responses.getLast?.map Response.status

/-- The host issues one command and waits for its response (R204). -/
def issue (c : Command) (s : State) : Host.Outcome State Fault Refusal := step (s.present c)

/-- The host issues commands in order and stops at the first response that is not OK (R81). -/
def issueAll : List Command → State → Host.Outcome State Fault Refusal
  | [], s => .next s
  | c :: cs, s =>
    match issue c s with
    | .next t => if t.lastStatus = some .ok then issueAll cs t else .next t
    | .fault r => .fault r
    | .refused r => .refused r

/-- `UPDATE L, D` (R80). -/
def updateCommand (len : Int) (d : List Byte) : Command := Command.of (.update len) d

/-- The expansion of `COMPUTE L, D` (R81). -/
def computeCommands (len : Int) (d : List Byte) : List Command :=
  [Command.of .init [], updateCommand len d, Command.of .finalize []]

/-- `COMPUTE L, D`; its result is the last response (R81). -/
def compute (len : Int) (d : List Byte) (s : State) : Host.Outcome State Fault Refusal := issueAll (computeCommands len d) s

/-- The data forms (R80). -/
inductive Data where
  /-- `x"…"`: bytes in order. -/
  | hex (bytes : List Byte)
  /-- `"…"`: ASCII bytes. -/
  | ascii (bytes : List Byte)
  /-- `pat(n)`. -/
  | pat (n : Nat)
  /-- `rep(n, b)`. -/
  | rep (n : Nat) (b : Byte)
  /-- `empty`. -/
  | empty
  deriving DecidableEq, Repr

/-- The bytes a data form stands for (R80). -/
def Data.bytes : Data → List Byte
  | .hex bs => bs
  | .ascii bs => bs
  | .pat n => (List.range n).map fun k => BitVec.ofNat 8 (k % 256)
  | .rep n b => List.replicate n b
  | .empty => []

/-- The command forms (R80, R81). -/
inductive Line where
  | init
  | update (len : Option Int) (d : Data)
  | finalize
  | raw (hdr : BitVec 64) (d : Option Data)
  | compute (len : Option Int) (d : Data)
  deriving DecidableEq, Repr

/-- An explicit len, or the number of data bytes (R80). -/
def lenOr (len : Option Int) (d : Data) : Int :=
  match len with
  | some l => l
  | none => (d.bytes.length : Int)

/-- The commands a line stands for (R80, R81). -/
def Line.commands : Line → List Command
  | .init => [Command.of .init []]
  | .update len d => [updateCommand (lenOr len d) d.bytes]
  | .finalize => [Command.of .finalize []]
  | .raw hdr none => [⟨hdr, []⟩]
  | .raw hdr (some d) => [⟨hdr, d.bytes⟩]
  | .compute len d => computeCommands (lenOr len d) d.bytes

/-! Reading a line. The spec gives the grammar and no rule for white space; spaces are allowed between tokens (log 14). -/

/-- The rest of the text after spaces. -/
def skipSpaces : List Char → List Char
  | ' ' :: cs => skipSpaces cs
  | cs => cs

/-- The rest of the text after exactly this token. -/
def expect : List Char → List Char → Option (List Char)
  | [], cs => some cs
  | _ :: _, [] => none
  | t :: ts, c :: cs => if t = c then expect ts cs else none

/-- The value of a hexadecimal digit, in either case. -/
def hexDigit (c : Char) : Option Nat :=
  if '0' ≤ c ∧ c ≤ '9' then some (c.toNat - '0'.toNat)
  else if 'a' ≤ c ∧ c ≤ 'f' then some (c.toNat - 'a'.toNat + 10)
  else if 'A' ≤ c ∧ c ≤ 'F' then some (c.toNat - 'A'.toNat + 10)
  else none

/-- Exactly n hexadecimal digits, most significant first. -/
def readHex : Nat → Nat → List Char → Option (Nat × List Char)
  | 0, acc, cs => some (acc, cs)
  | _ + 1, _, [] => none
  | n + 1, acc, c :: cs =>
    match hexDigit c with
    | some k => readHex n (16 * acc + k) cs
    | none => none

/-- The hexadecimal digit pairs of `x"…"`, up to the closing quote. -/
def readHexBytes : List Char → Option (List Byte × List Char)
  | '"' :: cs => some ([], cs)
  | p :: q :: cs =>
    match hexDigit p, hexDigit q, readHexBytes cs with
    | some x, some y, some (bs, rest) => some (BitVec.ofNat 8 (16 * x + y) :: bs, rest)
    | _, _, _ => none
  | _ => none

/-- The ASCII characters of `"…"`, up to the closing quote. -/
def readAscii : List Char → Option (List Byte × List Char)
  | [] => none
  | '"' :: cs => some ([], cs)
  | c :: cs =>
    if c.toNat < 128 then
      match readAscii cs with
      | some (bs, rest) => some (BitVec.ofNat 8 c.toNat :: bs, rest)
      | none => none
    else none

/-- Decimal digits after the first. -/
def readDigits (acc : Nat) : List Char → Nat × List Char
  | [] => (acc, [])
  | c :: cs => if '0' ≤ c ∧ c ≤ '9' then readDigits (10 * acc + (c.toNat - '0'.toNat)) cs else (acc, c :: cs)

/-- A natural number in decimal. -/
def readNat : List Char → Option (Nat × List Char)
  | [] => none
  | c :: cs => if '0' ≤ c ∧ c ≤ '9' then some (readDigits 0 (c :: cs)) else none

/-- `int`: a decimal number, with a minus sign before it if it is negative. -/
def readInt : List Char → Option (Int × List Char)
  | '-' :: cs => (readNat cs).map fun p => (-(p.1 : Int), p.2)
  | cs => (readNat cs).map fun p => ((p.1 : Int), p.2)

/-- `pat(n)` after its parenthesis. -/
def readPat (cs : List Char) : Option (Data × List Char) := do
  let (n, cs) ← readNat (skipSpaces cs)
  let cs ← expect [')'] (skipSpaces cs)
  return (.pat n, cs)

/-- `rep(n, b)` after its parenthesis. -/
def readRep (cs : List Char) : Option (Data × List Char) := do
  let (n, cs) ← readNat (skipSpaces cs)
  let cs ← expect [','] (skipSpaces cs)
  let (b, cs) ← readHex 2 0 (skipSpaces cs)
  let cs ← expect [')'] (skipSpaces cs)
  return (.rep n (BitVec.ofNat 8 b), cs)

/-- A data form. -/
def readData : List Char → Option (Data × List Char)
  | '"' :: cs => (readAscii cs).map fun p => (.ascii p.1, p.2)
  | 'x' :: '"' :: cs => (readHexBytes cs).map fun p => (.hex p.1, p.2)
  | 'p' :: 'a' :: 't' :: '(' :: cs => readPat cs
  | 'r' :: 'e' :: 'p' :: '(' :: cs => readRep cs
  | 'e' :: 'm' :: 'p' :: 't' :: 'y' :: cs => some (.empty, cs)
  | _ => none

/-- `[int ","] data`. -/
def readOperands (cs : List Char) : Option (Option Int × Data × List Char) :=
  match readInt cs with
  | some (l, rest) => do
    let rest ← expect [','] (skipSpaces rest)
    let (d, rest) ← readData (skipSpaces rest)
    return (some l, d, rest)
  | none => (readData cs).map fun p => (none, p.1, p.2)

/-- `hex64`: 16 hexadecimal digits, with or without `0x` before them. -/
def readHex64 : List Char → Option (Nat × List Char)
  | '0' :: 'x' :: cs => readHex 16 0 cs
  | cs => readHex 16 0 cs

/-- `[ "," data ]` of `.raw`. -/
def readRawData : List Char → Option (Option Data × List Char)
  | ',' :: cs => (readData (skipSpaces cs)).map fun p => (some p.1, p.2)
  | cs => some (none, cs)

/-- The end of a line: spaces, then nothing or a comment. -/
def endsHere (cs : List Char) : Bool :=
  match skipSpaces cs with
  | [] => true
  | ';' :: _ => true
  | _ => false

/-- A form that nothing but a comment may follow (R80). 95_test_vectors.md writes one line, the `.raw` of P4, with a response note `-> …` and no
`;` before it, against R80's grammar; the reader keeps the grammar and answers `none` on such a line (DESIGN CHOICE, log 14). -/
def closeLine (l : Line) (rest : List Char) : Option Line := if endsHere rest then some l else none

/-- One command of the text syntax (R80), with its comment; `none` where the text is not of the grammar. A line that holds only a comment,
or nothing, is no command, so it answers `none` here; a program may have such lines (`readProgram`; DESIGN CHOICE, log 14). -/
def readLine (cs : List Char) : Option Line :=
  match skipSpaces cs with
  | 'I' :: 'N' :: 'I' :: 'T' :: rest => closeLine .init rest
  | 'F' :: 'I' :: 'N' :: 'A' :: 'L' :: 'I' :: 'Z' :: 'E' :: rest => closeLine .finalize rest
  | 'U' :: 'P' :: 'D' :: 'A' :: 'T' :: 'E' :: rest => do
    let (l, d, rest) ← readOperands (skipSpaces rest)
    closeLine (.update l d) rest
  | 'C' :: 'O' :: 'M' :: 'P' :: 'U' :: 'T' :: 'E' :: rest => do
    let (l, d, rest) ← readOperands (skipSpaces rest)
    closeLine (.compute l d) rest
  | '.' :: 'r' :: 'a' :: 'w' :: rest => do
    let (h, rest) ← readHex64 (skipSpaces rest)
    let (d, rest) ← readRawData (skipSpaces rest)
    closeLine (.raw (BitVec.ofNat 64 h) d) rest
  | _ => none

/-- A program, one command a line (R80). R80 does not say what a line without a command is; P5 of 95_test_vectors.md has one that holds
only a comment, and it gives nothing here, as an empty line does (DESIGN CHOICE, log 14). `none` where a line is not of the grammar. -/
def readProgram : List (List Char) → Option (List Line)
  | [] => some []
  | l :: ls =>
    if endsHere l then readProgram ls
    else
      match readLine l, readProgram ls with
      | some x, some xs => some (x :: xs)
      | _, _ => none

/-- The host issues the commands of one line: COMPUTE's stop at the first response that is not OK, and a single command otherwise (R81). -/
def runLine (l : Line) (s : State) : Host.Outcome State Fault Refusal := issueAll l.commands s

/-- The host runs a program line after line, whatever the responses. After a single command that fails the next line runs, as in P4 of
95_test_vectors.md. That the stop of R81 at a failing COMPUTE ends only its own three commands, and the next line runs too, is the
model's (DESIGN CHOICE, log 22). -/
def runProgram : List Line → State → Host.Outcome State Fault Refusal
  | [], s => .next s
  | l :: ls, s =>
    match runLine l s with
    | .next t => runProgram ls t
    | .fault r => .fault r
    | .refused r => .refused r

end Sys2Proof.Machine
end

