-- ==== Sys2Proof/Safety.lean ====
section
/-! DEFINITION. What statements about runs are made of: the invariant of the states between commands, well-formed responses, what two
states must share for the host to see no difference, what an error leaves, and runs under a host's conduct. -/

namespace Sys2Proof

open Machine

/-- A response as R74 allows it: a DIGEST of 20 bytes only with OK, and otherwise none. -/
def Machine.Response.Legal (r : Response) : Prop := r.digest = [] ∨ (r.status = .ok ∧ r.digest.length = 20)

/-- The invariant of the states between commands. Once INIT has run, COUNT is a multiple of 8 (R22; in UNINIT it is any value, R40 and
log 10); in READY the Context is that of the empty message, in ACCUM that of some message (R135); in FINAL COUNT is a multiple of
512 (R153); no command is in flight (R204); every response sent is legal (R74). -/
structure Safe (s : State) : Prop where
  aligned : s.fsm ≠ .uninit → s.count.toNat % 8 = 0
  ready : s.fsm = .ready → Holds s []
  accum : s.fsm = .accum → ∃ m, Holds s m
  final : s.fsm = .final → s.count.toNat % 512 = 0
  idle : s.inFlight = none
  legal : ∀ r ∈ s.responses, r.Legal

/-- FSM is READY or ACCUM: UPDATE and FINALIZE are allowed (R27). -/
def Machine.State.Open (s : State) : Prop := s.fsm = .ready ∨ s.fsm = .accum

/-- Two states between which the host can see no difference (R41): they share FSM, the events to come and the responses sent, and, where
UPDATE and FINALIZE are allowed, H, COUNT and the valid prefix of BUF. Nothing is asked of BUF beyond the prefix (R25), of the
working registers (R32), or of the Context in UNINIT and FINAL (R40, R153). -/
structure LooksSame (s t : State) : Prop where
  fsm : s.fsm = t.fsm
  flight : s.inFlight = t.inFlight
  input : s.input = t.input
  responses : s.responses = t.responses
  hash : s.Open → s.h = t.h
  count : s.Open → s.count = t.count
  valid : s.Open → s.validBytes = t.validBytes

/-- The registers of 10_state.md that an error leaves alone: H, COUNT, BUF and FSM (R174). -/
structure SameContext (s t : State) : Prop where
  hash : t.h = s.h
  countHi : t.countHi = s.countHi
  countLo : t.countLo = s.countLo
  buf : t.buf = s.buf
  fsm : t.fsm = s.fsm

/-- `t` is `s` after an error response `e`: one response more, with no DIGEST, the command no longer in flight, no compression
performed, and H, COUNT, BUF and FSM as they were (R174). -/
structure Errored (e : Status) (s t : State) : Prop where
  context : SameContext s t
  answered : t.responses = s.responses ++ [⟨e, []⟩]
  flight : t.inFlight = none
  input : t.input = s.input
  compressions : t.compressions = s.compressions

/-- `k` steps, stopping at the first fault or refusal; it is `core.run` (`run_eq_core_run` in Laws). -/
def Machine.run : Nat → State → Host.Outcome State Fault Refusal
  | 0, s => .next s
  | k + 1, s =>
    match step s with
    | .next t => Machine.run k t
    | .fault r => .fault r
    | .refused r => .refused r

/-- The core just after reset, with a host that will do `es`. -/
def Machine.State.resetWith (es : List Input) : State := { State.reset with input := es }

/-- The core with a host that now presents these commands, in order, and nothing else. -/
def Machine.State.presenting (cs : List Command) (s : State) : State := { s with input := cs.map .command }

end Sys2Proof
end

