-- ==== Sys2Proof/Certificates/Slice0/Obligations.lean ====
section
/-! DEFINITION. The statements about SHA1-CORE for the provers. Each docstring names the rule of spec/ it formalises, or what it is
derived from. Free values (Config) appear in no statement: each holds whatever they are. -/

open Sys2Proof Sys2Proof.Machine

/-! ## Encoding -/

/-- Headers written out bit by bit from R71 and R73 decode to the commands they stand for: LEN, RSVD, OP. -/
def Obligations.WrittenHeadersDecode : Prop :=
  decode 0b0000000000000000000000000000000000000000000000000000000000000001#64 0 = .ok .init ∧
  decode 0b0000000000000000000000000000001100000000000000000000000000000010#64 3 = .ok (.update 3) ∧
  decode 0b1111111111111111111111111111111100000000000000000000000000000010#64 0 = .ok (.update (-1)) ∧
  decode 0b0000000000000000000000000000000000000000000000000000000000000011#64 0 = .ok .finalize ∧
  decode 0b0000000000000000000000000000000000000000000000000000000000000000#64 0 = .error .reservedOp

/-- Decode of encode is the instruction, for every well-formed instruction and every payload length its command may have. -/
def Obligations.DecodeOfEncode : Prop :=
  ∀ (i : Instr) (n : Nat), i.wf = true → (i = .init ∨ i = .finalize → n = 0) → decode (encode i) n = .ok i

/-- No two headers mean the same: a header that decodes is the encoding of what it decodes to, which is well formed. -/
def Obligations.EncodeOfDecode : Prop :=
  ∀ (hdr : BitVec 64) (n : Nat) (i : Instr), decode hdr n = .ok i → encode i = hdr ∧ i.wf = true

/-- The decoder and spec/opcode_table.json agree: with an empty payload, a header is of a row exactly when it decodes to that row's
command. -/
def Obligations.DecoderAgreesWithOpcodeTable : Prop :=
  ∀ (hdr : BitVec 64) (r : OpcodeRow), r ∈ opcodeTable →
    (r.admits hdr = true ↔ ∃ i, decode hdr 0 = .ok i ∧ i.mnemonic = r.mnemonic)

/-- R76: what each header does when the core accepts it, over every 64-bit header and every payload. -/
def Obligations.ExecuteFollowsTheHeader : Prop :=
  ∀ (s : State) (c : Command) (rest : List Input), s.input = .command c :: rest →
    (c.hdr = 0x0000000000000001 ∧ c.payload = [] → step s = exec .init (accept c rest s)) ∧
    (c.hdr.extractLsb' 0 32 = 0x00000002 →
      step s = exec (.update (c.hdr.extractLsb' 32 32).toInt) (accept c rest s)) ∧
    (c.hdr = 0x0000000000000003 ∧ c.payload = [] → step s = exec .finalize (accept c rest s)) ∧
    (¬(c.hdr = 0x0000000000000001 ∧ c.payload = []) → ¬(c.hdr.extractLsb' 0 32 = 0x00000002) →
      ¬(c.hdr = 0x0000000000000003 ∧ c.payload = []) →
      ∃ t, step s = .next t ∧ Errored .errIllegal (accept c rest s) t)

/-- A step runs the decoded instruction: when the command at the port decodes to i, the step is exec of i on the state that has accepted
the command, with nothing around it. -/
def Obligations.StepRunsDecodedCommand : Prop :=
  ∀ (s : State) (c : Command) (rest : List Input) (i : Instr), s.input = .command c :: rest →
    decode c.hdr c.payload.length = .ok i →
    step s = exec i { s with inFlight := some c, input := rest }

/-- R171: ERR_ILLEGAL is raised exactly when RSVD is not zero, OP is reserved, or INIT or FINALIZE has a LEN or a payload; in every FSM
state, recording nothing. -/
def Obligations.IllegalCommandAnswersErrIllegal : Prop :=
  ∀ (s : State) (c : Command) (rest : List Input), s.input = .command c :: rest →
    ((c.hdr.extractLsb' 8 24 ≠ 0 ∨
        (c.hdr.extractLsb' 0 8 = 0x00 ∨ 0x04 ≤ (c.hdr.extractLsb' 0 8).toNat) ∨
        ((c.hdr.extractLsb' 0 8 = 0x01 ∨ c.hdr.extractLsb' 0 8 = 0x03) ∧
          (c.hdr.extractLsb' 32 32 ≠ 0 ∨ c.payload.length ≠ 0))) →
      ∃ t, step s = .next t ∧ Errored .errIllegal (accept c rest s) t) ∧
    (∀ t, step s = .next t → t.responses = s.responses ++ [⟨.errIllegal, []⟩] →
      (c.hdr.extractLsb' 8 24 ≠ 0 ∨
        (c.hdr.extractLsb' 0 8 = 0x00 ∨ 0x04 ≤ (c.hdr.extractLsb' 0 8).toNat) ∨
        ((c.hdr.extractLsb' 0 8 = 0x01 ∨ c.hdr.extractLsb' 0 8 = 0x03) ∧
          (c.hdr.extractLsb' 32 32 ≠ 0 ∨ c.payload.length ≠ 0))))

/-- The text forms of UPDATE (R80): with an explicit len the header is {len mod 2^32, 0x000000, 0x02}, and without one len is the number of
data bytes; the payload is the data. -/
def Obligations.UpdateTextEncodesLen : Prop :=
  ∀ (len : Int) (d : Data),
    (∃ c, Line.commands (.update (some len) d) = [c] ∧ (c.hdr.toNat : Int) = len % 2 ^ 32 * 2 ^ 32 + 2 ∧ c.payload = d.bytes) ∧
    (∃ c, Line.commands (.update none d) = [c] ∧
      c.hdr.toNat = d.bytes.length % 2 ^ 32 * 2 ^ 32 + 2 ∧ c.payload = d.bytes)

/-! ## The compressor -/

/-- R100: rotl is the two shifts, and moves bit (i − n) mod 32 to bit i; rotating by 30 and then by 2 gives the word back. -/
def Obligations.RotlMovesBits : Prop :=
  ∀ (x : Word) (n : Nat), 1 ≤ n → n ≤ 31 →
    (rotl x n).toNat = ((x.toNat * 2 ^ n) ||| (x.toNat / 2 ^ (32 - n))) % 2 ^ 32 ∧
    (∀ i, i < 32 → (rotl x n).getLsbD i = x.getLsbD ((i + 32 - n) % 32)) ∧
    rotl (rotl x 30) 2 = x

/-- R101, R102: bit by bit, the round function of round t chooses between c and d by b (0..19), takes the parity (20..39, 60..79), or the
majority (40..59). -/
def Obligations.RoundFunctionsBitByBit : Prop :=
  ∀ (t : Nat) (b c d : Word) (i : Nat), t < 80 →
    (roundF t b c d).getLsbD i =
      if t < 20 then (if b.getLsbD i then c.getLsbD i else d.getLsbD i)
      else if 40 ≤ t ∧ t < 60 then
        decide (2 ≤ (b.getLsbD i).toNat + (c.getLsbD i).toNat + (d.getLsbD i).toNat)
      else decide (((b.getLsbD i).toNat + (c.getLsbD i).toNat + (d.getLsbD i).toNat) % 2 = 1)

/-- R51, R104: word i of a block is its bytes 4i .. 4i+3, the first most significant. -/
def Obligations.BlockWordsAreBigEndian : Prop :=
  ∀ (src : Block) (i : Nat) (h : i < 16),
    (loadWindow src)[i].toNat =
      src[4 * i].toNat * 2 ^ 24 + src[4 * i + 1].toNat * 2 ^ 16 + src[4 * i + 2].toNat * 2 ^ 8 + src[4 * i + 3].toNat

/-- R106: the words the rounds use, from the 16-word rolling window, are those of the 80-word schedule: the block's words, and from round
16 on the recurrence over the words used 3, 8, 14 and 16 rounds before. -/
def Obligations.RollingWindowIsThe80WordSchedule : Prop :=
  ∀ (h : Hash) (src : Block) (t : Nat),
    ((ht : t < 16) → usedWord h src t = be32 src[4 * t] src[4 * t + 1] src[4 * t + 2] src[4 * t + 3]) ∧
    (16 ≤ t → t < 80 →
      usedWord h src t =
        rotl (usedWord h src (t - 3) ^^^ usedWord h src (t - 8) ^^^ usedWord h src (t - 14) ^^^ usedWord h src (t - 16)) 1)

/-- R108: ROUND(t) is the source's unrolled form, which updates roles e and b in place and then rotates the roles. -/
def Obligations.RoundIsTheUnrolledForm : Prop :=
  ∀ (t : Nat) (x : Work), rotateRoles (roundInPlace t x) = Machine.round t x

/-- R109's example: from H_INIT, the padded block of "abc". A sanity check on fixed values. -/
def Obligations.CompressOfPaddedAbc : Prop :=
  compressHash hInit (window (pad [0x61, 0x62, 0x63])) =
    #v[0xA9993E36, 0x4706816A, 0xBA3E2571, 0x7850C26C, 0x9CD0D89D]

/-! ## INIT -/

/-- R28: in every state INIT completes and loads H_INIT. Its other effects (R130) stand beside it: it clears COUNT, so j = 0, sets FSM to
READY and answers OK; it performs no compression and takes nothing from the port. (BUF is then wholly beyond the valid prefix: R25,
log 6.) -/
def Obligations.InitLoadsInitialContext : Prop :=
  ∀ s : State, ∃ t, exec .init s = .next t ∧
    t.h = #v[0x67452301, 0xEFCDAB89, 0x98BADCFE, 0x10325476, 0xC3D2E1F0] ∧
    t.countHi = 0 ∧ t.countLo = 0 ∧ t.fill = 0 ∧ t.fsm = .ready ∧
    t.responses = s.responses ++ [⟨.ok, []⟩] ∧ t.inFlight = none ∧ t.input = s.input ∧ t.compressions = s.compressions

/-- R60: INIT twice leaves the same H, COUNT, FSM and valid prefix as INIT once. -/
def Obligations.InitTwiceIsInitOnce : Prop :=
  ∀ s : State, ∃ t u, exec .init s = .next t ∧ exec .init t = .next u ∧
    u.h = t.h ∧ u.countHi = t.countHi ∧ u.countLo = t.countLo ∧ u.fsm = t.fsm ∧ u.validBytes = t.validBytes

/-! ## UPDATE -/

/-- UPDATE with legal arguments completes, in READY and ACCUM, at every fill and every length: what it does to H, the valid prefix, COUNT
and FSM, its one response, its work, and that it leaves the rest. From R131, R132, R134. -/
def Obligations.UpdateAbsorbsPayload : Prop :=
  ∀ (s : State) (len : Nat), s.Open → len ≤ s.payload.length →
    ∃ t, exec (.update len) s = .next t ∧
      t.h = compressStar s.h (s.validBytes ++ s.payload.take len) ∧
      t.validBytes = tailBytes (s.validBytes ++ s.payload.take len) ∧
      t.fill = (s.fill + len) % 64 ∧
      t.count = s.count + BitVec.ofNat 64 (8 * len) ∧
      t.fsm = .accum ∧
      t.responses = s.responses ++ [⟨.ok, []⟩] ∧ t.inFlight = none ∧ t.input = s.input ∧
      t.compressions = s.compressions + (s.fill + len) / 64

/-- R131, step 3, and the frame of BUF: an UPDATE that does not fill the buffer leaves H, performs no compression, keeps the bytes before
j and puts its bytes at j, j + 1, …; when j + len = 64 it compresses BUF once, BUF then being the valid bytes and the payload's. -/
def Obligations.UpdateWritesBufAtTheFill : Prop :=
  ∀ (s : State) (len : Nat), s.Open → len ≤ s.payload.length →
    ∃ t, exec (.update len) s = .next t ∧
      (s.fill + len ≤ 63 →
        t.h = s.h ∧ t.compressions = s.compressions ∧ t.fill = s.fill + len ∧
        (∀ k (_ : k < 64), k < s.fill → t.buf[k] = s.buf[k]) ∧
        (∀ k (_ : s.fill + k < 64) (_ : k < s.payload.length), k < len → t.buf[s.fill + k] = s.payload[k])) ∧
      (s.fill + len = 64 →
        t.h = compressHash s.h (window (s.validBytes ++ s.payload.take len)) ∧
        t.compressions = s.compressions + 1 ∧ t.fill = 0)

/-- UPDATE with len = 0 changes only FSM: H, COUNT and all of BUF keep their values. From R60, R131, R132, R176. -/
def Obligations.UpdateOfNothingChangesOnlyFsm : Prop :=
  ∀ s : State, s.Open → ∃ t, exec (.update 0) s = .next t ∧
    t.h = s.h ∧ t.countHi = s.countHi ∧ t.countLo = s.countLo ∧ t.buf = s.buf ∧ t.fsm = .accum ∧
    t.responses = s.responses ++ [⟨.ok, []⟩] ∧ t.compressions = s.compressions

/-- R78: the payload's bytes beyond len change nothing. With two payloads that agree on their first len bytes UPDATE completes in every
state, and H, COUNT, the valid prefix, FSM, the responses, the port and the work come out the same. What the spec leaves unspecified
(R25, R32) is not compared. -/
def Obligations.BytesBeyondLenAreIgnored : Prop :=
  ∀ (s : State) (hdr : BitVec 64) (p q : List Byte) (len : Nat), len ≤ p.length →
    ∃ t u, exec (.update len) { s with inFlight := some ⟨hdr, p⟩ } = .next t ∧
      exec (.update len) { s with inFlight := some ⟨hdr, p.take len ++ q⟩ } = .next u ∧
      t.h = u.h ∧ t.countHi = u.countHi ∧ t.countLo = u.countLo ∧ t.validBytes = u.validBytes ∧ t.fsm = u.fsm ∧
      t.responses = u.responses ∧ t.inFlight = u.inFlight ∧ t.input = u.input ∧ t.compressions = u.compressions

/-- R133: the two words of COUNT after UPDATE: the carry out of COUNT_LO goes into COUNT_HI, and the carry out of COUNT_HI is discarded. -/
def Obligations.CountCarriesFromLowToHigh : Prop :=
  ∀ (s : State) (len : Nat), s.Open → len ≤ s.payload.length →
    ∃ t, exec (.update len) s = .next t ∧
      t.countLo.toNat = (s.countLo.toNat + 8 * len) % 2 ^ 32 ∧
      t.countHi.toNat = (s.countHi.toNat + (s.countLo.toNat + 8 * len) / 2 ^ 32) % 2 ^ 32 ∧
      t.count.toNat = (s.count.toNat + 8 * len) % 2 ^ 64

/-- R39: while the message stays under 2^64 bits, UPDATE never lowers COUNT, whatever its arguments and its response, and raises it when
it absorbs anything. -/
def Obligations.CountNeverDecreasesInAMessage : Prop :=
  ∀ (s t : State) (len : Int), exec (.update len) s = .next t → s.count.toNat + 8 * len.toNat < 2 ^ 64 →
    s.count.toNat ≤ t.count.toNat ∧
    (t.responses = s.responses ++ [⟨.ok, []⟩] → t.count.toNat = s.count.toNat + 8 * len.toNat)

/-- R172: UPDATE in READY or ACCUM with a negative length, or one that exceeds the payload, answers ERR_ARG and absorbs no byte. -/
def Obligations.BadLengthAnswersErrArg : Prop :=
  ∀ (s : State) (len : Int), s.Open → (len < 0 ∨ (s.payload.length : Int) < len) →
    ∃ t, exec (.update len) s = .next t ∧ Errored .errArg s t

/-! ## FINALIZE -/

/-- R153: FINALIZE completes in READY and ACCUM (COUNT a multiple of 8, R22), and what it leaves: FSM, the digest words in H, COUNT = L + 8·P,
a multiple of 512, j = 0. It answers OK with the digest. -/
def Obligations.FinalizeLeavesTheDigest : Prop :=
  ∀ s : State, s.Open → s.count.toNat % 8 = 0 →
    ∃ t dg, exec .finalize s = .next t ∧
      t.responses = s.responses ++ [⟨.ok, dg⟩] ∧ dg.length = 20 ∧
      (∀ (i : Nat) (_ : i < 5) (_ : dg.length = 20), t.h[i] = be32 dg[4 * i] dg[4 * i + 1] dg[4 * i + 2] dg[4 * i + 3]) ∧
      t.fsm = .final ∧
      t.count = s.count + BitVec.ofNat 64 (8 * padCount s.fill) ∧ t.count.toNat % 512 = 0 ∧ t.fill = 0 ∧
      t.inFlight = none ∧ t.input = s.input

/-- R151: from entry fill r FINALIZE absorbs P = 1 + z + 8 bytes with z = (55 − r) mod 64 (in naturals, r being below 64), P lies in 9..72,
r + P is whole blocks, and it performs one compression when r ≤ 55, two when r ≥ 56. -/
def Obligations.FinalizeCompressesOnceOrTwice : Prop :=
  ∀ s : State, s.Open → s.count.toNat % 8 = 0 →
    (s.fill + padCount s.fill) % 64 = 0 ∧ 9 ≤ padCount s.fill ∧ padCount s.fill ≤ 72 ∧
    ∃ t, exec .finalize s = .next t ∧
      t.count = s.count + BitVec.ofNat 64 (8 * (1 + (55 + 64 - s.fill) % 64 + 8)) ∧
      t.compressions = s.compressions + (if s.fill ≤ 55 then 1 else 2)

/-- FINALIZE's digest is the closed form over the message absorbed since INIT, and pad(M) is whole blocks. From R150, R133 and R154, without
R154's bound 8·m < 2^64: that the closed form is stated past it, with COUNT's wrap, is the model's (DEDUCED, log 16). -/
def Obligations.FinalizeAnswersTheClosedForm : Prop :=
  ∀ (s : State) (m : List Byte), s.Open → Holds s m →
    (pad m).length % 64 = 0 ∧
    ∃ t, exec .finalize s = .next t ∧ t.responses = s.responses ++ [⟨.ok, sha1 m⟩]

/-- FINALIZE faults exactly where R150's loop never ends: READY or ACCUM with a COUNT that is no multiple of 8. The fault is the model's
choice (log 9); no state that a run from reset reaches is such (see EveryRunFromResetIsSafe). -/
def Obligations.FinalizeFaultsOnlyWherePaddingNeverEnds : Prop :=
  ∀ s : State, exec .finalize s = .fault .paddingNeverEnds ↔ (s.Open ∧ s.count.toNat % 8 ≠ 0)

/-- R52: byte k of the length field is L[63 − 8k : 56 − 8k], so the first is L[63:56] and the last L[7:0]. -/
def Obligations.LengthFieldIsBigEndian : Prop :=
  ∀ l : BitVec 64, (lengthBytes l).length = 8 ∧
    ∀ k, k < 8 → ((lengthBytes l).getD k 0).toNat = l.toNat / 2 ^ (56 - 8 * k) % 2 ^ 8

/-- R53, R152: the digest is 20 bytes; byte 4i + k is bits 31 − 8k .. 24 − 8k of H[i]. -/
def Obligations.DigestIsBigEndian : Prop :=
  ∀ h : Hash, (serialize h).length = 20 ∧
    ∀ (i k : Nat) (_ : i < 5), k < 4 → ((serialize h).getD (4 * i + k) 0).toNat = h[i].toNat / 2 ^ (24 - 8 * k) % 2 ^ 8

/-! ## Errors, the life cycle, responses -/

/-- R173: UPDATE and FINALIZE in UNINIT and in FINAL answer ERR_STATE, whatever UPDATE's length, and change nothing. -/
def Obligations.WrongStateAnswersErrState : Prop :=
  ∀ s : State, s.fsm = .uninit ∨ s.fsm = .final →
    (∀ len, ∃ t, exec (.update len) s = .next t ∧ Errored .errState s t) ∧
    (∃ t, exec .finalize s = .next t ∧ Errored .errState s t)

/-- R27: the transition table, cell by cell: the next FSM and the status of each command in each FSM state, with the digest where the cell
has one; a reserved command answers ERR_ILLEGAL; an error leaves FSM and the whole Context. -/
def Obligations.FsmFollowsTheTable : Prop :=
  ∀ (s : State) (c : Command) (rest : List Input), Safe s → s.input = .command c :: rest →
    ∃ t dg, step s = .next t ∧
      (∀ i, c.decode = .ok i →
        t.fsm = (fsmTable s.fsm i c.payload.length).1 ∧
        t.responses = s.responses ++ [⟨(fsmTable s.fsm i c.payload.length).2, dg⟩] ∧
        ((fsmTable s.fsm i c.payload.length).2 ≠ .ok → SameContext s t) ∧
        (i = .finalize ∧ (fsmTable s.fsm i c.payload.length).2 = .ok → dg = serialize t.h) ∧
        (¬(i = .finalize ∧ (fsmTable s.fsm i c.payload.length).2 = .ok) → dg = [])) ∧
      (∀ e, c.decode = .error e → SameContext s t ∧ t.responses = s.responses ++ [⟨.errIllegal, []⟩])

/-- R175: one status, in this order: ERR_ILLEGAL, then ERR_STATE, then ERR_ARG, then OK. -/
def Obligations.ErrorsHaveThePriority : Prop :=
  ∀ (s : State) (c : Command) (rest : List Input), Safe s → s.input = .command c :: rest →
    ∃ t dg, step s = .next t ∧
      t.responses = s.responses ++
        [⟨match c.decode with
          | .error _ => .errIllegal
          | .ok .init => .ok
          | .ok .finalize => if s.fsm = .uninit ∨ s.fsm = .final then .errState else .ok
          | .ok (.update len) =>
            if s.fsm = .uninit ∨ s.fsm = .final then .errState
            else if len < 0 ∨ (c.payload.length : Int) < len then .errArg else .ok, dg⟩]

/-- R174: a command that ends in an error leaves H, COUNT, BUF and FSM as they were before it, and no compression is performed. -/
def Obligations.ErrorChangesNoState : Prop :=
  ∀ (s t : State) (c : Command) (rest : List Input) (r : Response), s.input = .command c :: rest → step s = .next t →
    t.responses = s.responses ++ [r] → r.status ≠ .ok →
    SameContext s t ∧ r.digest = [] ∧ t.compressions = s.compressions

/-- R74: each command gets exactly one response; it has a DIGEST, of 20 bytes and the words of H, exactly when the command is FINALIZE and
the status is OK. -/
def Obligations.OneResponsePerCommand : Prop :=
  ∀ (s : State) (c : Command) (rest : List Input), Safe s → s.input = .command c :: rest →
    ∃ t r, step s = .next t ∧ t.responses = s.responses ++ [r] ∧ t.inFlight = none ∧ t.input = rest ∧
      (c.decode = .ok .finalize ∧ r.status = .ok → r.digest = serialize t.h ∧ r.digest.length = 20) ∧
      (¬(c.decode = .ok .finalize ∧ r.status = .ok) → r.digest = [])

/-- R202: from UNINIT, until an INIT, every UPDATE and FINALIZE answers ERR_STATE and every illegal header ERR_ILLEGAL, and H, COUNT, BUF and
FSM are kept, however many there are. -/
def Obligations.NothingWorksBeforeInit : Prop :=
  ∀ (s : State) (cs : List Command), s.fsm = .uninit → (∀ c ∈ cs, c.decode ≠ .ok .init) →
    ∃ t, Machine.run cs.length (s.presenting cs) = .next t ∧ SameContext s t ∧
      t.responses = s.responses ++ cs.map fun c =>
        match c.decode with
        | .ok _ => ⟨.errState, []⟩
        | .error _ => ⟨.errIllegal, []⟩

/-- A reset event leaves UNINIT (R200), and abandons the command in progress without a response (R201). The model's own (DEDUCED, log 11):
the reset event itself carries the command it abandons, and what the host has not yet had accepted is still to come. -/
def Obligations.ResetAbandonsTheCommand : Prop :=
  ∀ (s : State) (c : Option Command) (rest : List Input), s.input = .reset c :: rest →
    ∃ t, step s = .next t ∧ t.fsm = .uninit ∧ t.inFlight = none ∧ t.responses = s.responses ∧ t.input = rest

/-- R187: with nothing presented the core holds its state, however long (log 12). -/
def Obligations.IdleCoreHoldsItsState : Prop :=
  ∀ (s : State) (k : Nat), s.input = [] → Machine.run k s = .next s

/-- R63: a step takes one event from the front of the port and sends at most one response, after those already sent. -/
def Obligations.CommandsAreTakenInOrder : Prop :=
  ∀ (s t : State) (e : Input) (rest : List Input), s.input = e :: rest → step s = .next t →
    t.input = rest ∧ ∃ rs, t.responses = s.responses ++ rs ∧ rs.length ≤ 1

/-! ## Whole-machine statements -/

/-- The machine after reset is safe, with any host, and in UNINIT (R40, R200). The zeros of State.reset (log 4) are not spoken of. -/
def Obligations.ResetIsSafe : Prop :=
  ∀ es : List Input, Safe (State.resetWith es) ∧ (State.resetWith es).fsm = .uninit

/-- Every step keeps the invariant Safe: COUNT a multiple of 8 (R22), the Context that of a message in READY and ACCUM (R135), COUNT a
multiple of 512 in FINAL (R153), no command left in flight (R204), every response legal (R74). -/
def Obligations.StepKeepsSafe : Prop := ∀ s t : State, Safe s → step s = .next t → Safe t

/-- Whatever a host does after reset, every step answers a next state, with no fault and no refusal, and every state reached is safe. That
R207's liveness is a step's answer is the model's reading (DEDUCED, log 18). It speaks of runs from State.reset, whose zeros are the
model's (log 4); SafeStatesStepToSafeStates says the same of every safe state. -/
def Obligations.EveryRunFromResetIsSafe : Prop :=
  ∀ (es : List Input) (k : Nat), ∃ t, Machine.run k (State.resetWith es) = .next t ∧ Safe t

/-- R38: INIT reloads H, and every other command changes H only by whole 64-byte compressions: H after it is H before it folded over as
many blocks as compressions were performed. -/
def Obligations.HashChangesOnlyByWholeCompressions : Prop :=
  ∀ (s t : State) (c : Command) (rest : List Input), s.input = .command c :: rest → step s = .next t →
    (c.decode = .ok .init → t.h = hInit) ∧
    (c.decode ≠ .ok .init →
      ∃ bs : List Block, t.h = bs.foldl compressHash s.h ∧ t.compressions = s.compressions + bs.length)

/-- The work of each command (R208): 0 for INIT and for errors, ⌊(j + len)/64⌋ for UPDATE, 1 or 2 for FINALIZE. -/
def Obligations.WorkPerCommand : Prop :=
  ∀ (s : State) (c : Command) (rest : List Input), Safe s → s.input = .command c :: rest →
    ∃ t r, step s = .next t ∧ t.responses = s.responses ++ [r] ∧
      t.compressions = s.compressions +
        (if r.status ≠ .ok then 0
        else match c.decode with
          | .ok (.update len) => (s.fill + len.toNat) / 64
          | .ok .finalize => if s.fill ≤ 55 then 1 else 2
          | _ => 0)

/-- The message invariant, as a step keeps it: INIT makes the Context that of the empty message, and UPDATE in READY or ACCUM extends the
message by the bytes it absorbs. From R130, R131, R133 and R135, without R135's bound 8·m < 2^64: that it is stated past it, with COUNT's
wrap, is the model's (DEDUCED, log 16). -/
def Obligations.ContextHoldsTheMessage : Prop :=
  (∀ s : State, ∃ t, exec .init s = .next t ∧ Holds t []) ∧
  (∀ (s : State) (m : List Byte) (len : Nat), s.Open → Holds s m → len ≤ s.payload.length →
    ∃ t, exec (.update len) s = .next t ∧ Holds t (m ++ s.payload.take len))

/-- R136: however a run of bytes is cut into UPDATEs, H, COUNT and the valid prefix of BUF come out the same. -/
def Obligations.ChunkingIsInvisible : Prop :=
  ∀ (s : State) (ds es : List (List Byte)), s.Open → ds.flatten = es.flatten →
    (∀ d ∈ ds, d.length < 2 ^ 31) → (∀ d ∈ es, d.length < 2 ^ 31) →
    ∃ t u, Machine.run ds.length (s.presenting (ds.map fun d => updateCommand d.length d)) = .next t ∧
      Machine.run es.length (s.presenting (es.map fun d => updateCommand d.length d)) = .next u ∧
      t.h = u.h ∧ t.count = u.count ∧ t.validBytes = u.validBytes

/-- From any state, INIT, UPDATEs of any chunks, FINALIZE (R203): every response is OK, and the last carries the digest of the chunks joined
(R154). That it is stated past R154's bound 8·m < 2^64 is the model's (DEDUCED, log 16). -/
def Obligations.MessageSequenceGivesTheDigest : Prop :=
  ∀ (s : State) (ds : List (List Byte)), (∀ d ∈ ds, d.length < 2 ^ 31) →
    ∃ t, Machine.run (ds.length + 2) (s.presenting
        (Command.of .init [] :: ds.map (fun d => updateCommand d.length d) ++ [Command.of .finalize []])) = .next t ∧
      t.responses = s.responses ++ List.replicate (ds.length + 1) ⟨.ok, []⟩ ++ [⟨.ok, sha1 ds.flatten⟩] ∧
      t.fsm = .final

/-- COMPUTE (R81) from any state: with a legal len its result is the digest of the bytes it names; with a bad len its result is ERR_ARG, with
READY and the initial Context left. That COMPUTE's commands go ahead of any other events that wait at the port is the model's choice
(DESIGN CHOICE, log 19); with nothing waiting (one host alone, U12) it changes nothing. -/
def Obligations.ComputeGivesTheDigestOrErrArg : Prop :=
  ∀ (s : State) (len : Int) (d : List Byte), lenFits len = true →
    (0 ≤ len → len ≤ (d.length : Int) →
      ∃ t, compute len d s = .next t ∧ t.responses.getLast? = some ⟨.ok, sha1 (d.take len.toNat)⟩) ∧
    (len < 0 ∨ (d.length : Int) < len →
      ∃ t, compute len d s = .next t ∧ t.responses.getLast? = some ⟨.errArg, []⟩ ∧
        t.fsm = .ready ∧ t.h = hInit ∧ t.countHi = 0 ∧ t.countLo = 0)

/-- R25, R32, R41: what the spec leaves unspecified never reaches a response. Two states that share FSM, ports and, in READY and ACCUM, H,
COUNT and the valid prefix stay so under a step, whatever their stale bytes, working registers and draws are. -/
def Obligations.UnspecifiedStateNeverReachesAResponse : Prop :=
  ∀ s t s' : State, LooksSame s t → step s = .next s' → ∃ t', step t = .next t' ∧ LooksSame s' t'

/-- The step lemma of the machine's liveness and safety: from every safe state, reachable or not, a step answers a next state, with no fault
and no refusal, and that state is safe. That R207's liveness is a step's answer is the model's reading (DEDUCED, log 18). -/
def Obligations.SafeStatesStepToSafeStates : Prop := ∀ s : State, Safe s → ∃ t, step s = .next t ∧ Safe t
end

