-- ==== Sys2Proof/Laws/State.lean ====
section
/-! SUPPORT. One lemma per field and per update of State: what each operation of the machine writes, and what it leaves. -/

namespace Sys2Proof.Machine

@[simp] theorem accept_h (c : Command) (rest : List Input) (s : State) : (accept c rest s).h = s.h := rfl
@[simp] theorem accept_countHi (c : Command) (rest : List Input) (s : State) :
    (accept c rest s).countHi = s.countHi := rfl
@[simp] theorem accept_countLo (c : Command) (rest : List Input) (s : State) :
    (accept c rest s).countLo = s.countLo := rfl
@[simp] theorem accept_buf (c : Command) (rest : List Input) (s : State) :
    (accept c rest s).buf = s.buf := rfl
@[simp] theorem accept_fsm (c : Command) (rest : List Input) (s : State) :
    (accept c rest s).fsm = s.fsm := rfl
@[simp] theorem accept_work (c : Command) (rest : List Input) (s : State) :
    (accept c rest s).work = s.work := rfl
@[simp] theorem accept_inFlight (c : Command) (rest : List Input) (s : State) :
    (accept c rest s).inFlight = some c := rfl
@[simp] theorem accept_input (c : Command) (rest : List Input) (s : State) :
    (accept c rest s).input = rest := rfl
@[simp] theorem accept_responses (c : Command) (rest : List Input) (s : State) :
    (accept c rest s).responses = s.responses := rfl
@[simp] theorem accept_draws (c : Command) (rest : List Input) (s : State) :
    (accept c rest s).draws = s.draws := rfl
@[simp] theorem accept_compressions (c : Command) (rest : List Input) (s : State) :
    (accept c rest s).compressions = s.compressions := rfl

@[simp] theorem settleBuf_h (s : State) : (s.settleBuf).h = s.h := by simp only [State.settleBuf]
@[simp] theorem settleBuf_countHi (s : State) : (s.settleBuf).countHi = s.countHi := by simp only [State.settleBuf]
@[simp] theorem settleBuf_countLo (s : State) : (s.settleBuf).countLo = s.countLo := by simp only [State.settleBuf]
@[simp] theorem settleBuf_buf (s : State) : (s.settleBuf).buf = drawStale s.draws s.fill s.buf := by simp only [State.settleBuf]
@[simp] theorem settleBuf_fsm (s : State) : (s.settleBuf).fsm = s.fsm := by simp only [State.settleBuf]
@[simp] theorem settleBuf_work (s : State) : (s.settleBuf).work = s.work := by simp only [State.settleBuf]
@[simp] theorem settleBuf_inFlight (s : State) : (s.settleBuf).inFlight = s.inFlight := by simp only [State.settleBuf]
@[simp] theorem settleBuf_input (s : State) : (s.settleBuf).input = s.input := by simp only [State.settleBuf]
@[simp] theorem settleBuf_responses (s : State) : (s.settleBuf).responses = s.responses := by simp only [State.settleBuf]
@[simp] theorem settleBuf_draws (s : State) : (s.settleBuf).draws = s.draws := by simp only [State.settleBuf]
@[simp] theorem settleBuf_compressions (s : State) : (s.settleBuf).compressions = s.compressions := by simp only [State.settleBuf]

@[simp] theorem respond_h (st : Status) (dg : List Byte) (s : State) : (respond st dg s).h = s.h := rfl
@[simp] theorem respond_countHi (st : Status) (dg : List Byte) (s : State) :
    (respond st dg s).countHi = s.countHi := rfl
@[simp] theorem respond_countLo (st : Status) (dg : List Byte) (s : State) :
    (respond st dg s).countLo = s.countLo := rfl
@[simp] theorem respond_buf (st : Status) (dg : List Byte) (s : State) : (respond st dg s).buf = s.buf := rfl
@[simp] theorem respond_fsm (st : Status) (dg : List Byte) (s : State) : (respond st dg s).fsm = s.fsm := rfl
@[simp] theorem respond_work (st : Status) (dg : List Byte) (s : State) :
    (respond st dg s).work = drawWork s.draws s.work := rfl
@[simp] theorem respond_inFlight (st : Status) (dg : List Byte) (s : State) :
    (respond st dg s).inFlight = none := rfl
@[simp] theorem respond_input (st : Status) (dg : List Byte) (s : State) :
    (respond st dg s).input = s.input := rfl
@[simp] theorem respond_responses (st : Status) (dg : List Byte) (s : State) :
    (respond st dg s).responses = s.responses ++ [⟨st, dg⟩] := rfl
@[simp] theorem respond_draws (st : Status) (dg : List Byte) (s : State) :
    (respond st dg s).draws = s.draws + 1 := rfl
@[simp] theorem respond_compressions (st : Status) (dg : List Byte) (s : State) :
    (respond st dg s).compressions = s.compressions := rfl

@[simp] theorem raise_h (e : Status) (s : State) : (raise e s).h = s.h := rfl
@[simp] theorem raise_countHi (e : Status) (s : State) : (raise e s).countHi = s.countHi := rfl
@[simp] theorem raise_countLo (e : Status) (s : State) : (raise e s).countLo = s.countLo := rfl
@[simp] theorem raise_buf (e : Status) (s : State) : (raise e s).buf = s.buf := rfl
@[simp] theorem raise_fsm (e : Status) (s : State) : (raise e s).fsm = s.fsm := rfl
@[simp] theorem raise_work (e : Status) (s : State) : (raise e s).work = drawWork s.draws s.work := rfl
@[simp] theorem raise_inFlight (e : Status) (s : State) : (raise e s).inFlight = none := rfl
@[simp] theorem raise_input (e : Status) (s : State) : (raise e s).input = s.input := rfl
@[simp] theorem raise_responses (e : Status) (s : State) :
    (raise e s).responses = s.responses ++ [⟨e, []⟩] := rfl
@[simp] theorem raise_draws (e : Status) (s : State) : (raise e s).draws = s.draws + 1 := rfl
@[simp] theorem raise_compressions (e : Status) (s : State) : (raise e s).compressions = s.compressions := rfl

@[simp] theorem resetEvent_h (rest : List Input) (s : State) :
    (resetEvent rest s).h = drawHash s.draws s.h := rfl
@[simp] theorem resetEvent_countHi (rest : List Input) (s : State) :
    (resetEvent rest s).countHi = Config.freeWord s.draws 5 s.countHi := rfl
@[simp] theorem resetEvent_countLo (rest : List Input) (s : State) :
    (resetEvent rest s).countLo = Config.freeWord s.draws 6 s.countLo := rfl
@[simp] theorem resetEvent_buf (rest : List Input) (s : State) :
    (resetEvent rest s).buf = drawStale s.draws 0 s.buf := rfl
@[simp] theorem resetEvent_fsm (rest : List Input) (s : State) : (resetEvent rest s).fsm = .uninit := rfl
@[simp] theorem resetEvent_work (rest : List Input) (s : State) :
    (resetEvent rest s).work = drawWork s.draws s.work := rfl
@[simp] theorem resetEvent_inFlight (rest : List Input) (s : State) :
    (resetEvent rest s).inFlight = none := rfl
@[simp] theorem resetEvent_input (rest : List Input) (s : State) : (resetEvent rest s).input = rest := rfl
@[simp] theorem resetEvent_responses (rest : List Input) (s : State) :
    (resetEvent rest s).responses = s.responses := rfl
@[simp] theorem resetEvent_draws (rest : List Input) (s : State) :
    (resetEvent rest s).draws = s.draws + 1 := rfl
@[simp] theorem resetEvent_compressions (rest : List Input) (s : State) :
    (resetEvent rest s).compressions = s.compressions := rfl

@[simp] theorem setFsm_h (f : Fsm) (s : State) : (s.setFsm f).h = s.h := rfl
@[simp] theorem setFsm_countHi (f : Fsm) (s : State) : (s.setFsm f).countHi = s.countHi := rfl
@[simp] theorem setFsm_countLo (f : Fsm) (s : State) : (s.setFsm f).countLo = s.countLo := rfl
@[simp] theorem setFsm_buf (f : Fsm) (s : State) : (s.setFsm f).buf = s.buf := rfl
@[simp] theorem setFsm_fsm (f : Fsm) (s : State) : (s.setFsm f).fsm = f := rfl
@[simp] theorem setFsm_work (f : Fsm) (s : State) : (s.setFsm f).work = s.work := rfl
@[simp] theorem setFsm_inFlight (f : Fsm) (s : State) : (s.setFsm f).inFlight = s.inFlight := rfl
@[simp] theorem setFsm_input (f : Fsm) (s : State) : (s.setFsm f).input = s.input := rfl
@[simp] theorem setFsm_responses (f : Fsm) (s : State) : (s.setFsm f).responses = s.responses := rfl
@[simp] theorem setFsm_draws (f : Fsm) (s : State) : (s.setFsm f).draws = s.draws := rfl
@[simp] theorem setFsm_compressions (f : Fsm) (s : State) : (s.setFsm f).compressions = s.compressions := rfl

@[simp] theorem present_h (c : Command) (s : State) : (s.present c).h = s.h := rfl
@[simp] theorem present_countHi (c : Command) (s : State) : (s.present c).countHi = s.countHi := rfl
@[simp] theorem present_countLo (c : Command) (s : State) : (s.present c).countLo = s.countLo := rfl
@[simp] theorem present_buf (c : Command) (s : State) : (s.present c).buf = s.buf := rfl
@[simp] theorem present_fsm (c : Command) (s : State) : (s.present c).fsm = s.fsm := rfl
@[simp] theorem present_work (c : Command) (s : State) : (s.present c).work = s.work := rfl
@[simp] theorem present_inFlight (c : Command) (s : State) : (s.present c).inFlight = s.inFlight := rfl
@[simp] theorem present_input (c : Command) (s : State) : (s.present c).input = .command c :: s.input := rfl
@[simp] theorem present_responses (c : Command) (s : State) : (s.present c).responses = s.responses := rfl
@[simp] theorem present_draws (c : Command) (s : State) : (s.present c).draws = s.draws := rfl
@[simp] theorem present_compressions (c : Command) (s : State) :
    (s.present c).compressions = s.compressions := rfl

@[simp] theorem compress_h (src : Block) (s : State) : (compress src s).h = compressHash s.h src := rfl
@[simp] theorem compress_countHi (src : Block) (s : State) : (compress src s).countHi = s.countHi := rfl
@[simp] theorem compress_countLo (src : Block) (s : State) : (compress src s).countLo = s.countLo := rfl
@[simp] theorem compress_buf (src : Block) (s : State) : (compress src s).buf = s.buf := rfl
@[simp] theorem compress_fsm (src : Block) (s : State) : (compress src s).fsm = s.fsm := rfl
@[simp] theorem compress_work (src : Block) (s : State) :
    (compress src s).work = runRounds 80 (startWork s.h src) := rfl
@[simp] theorem compress_inFlight (src : Block) (s : State) : (compress src s).inFlight = s.inFlight := rfl
@[simp] theorem compress_input (src : Block) (s : State) : (compress src s).input = s.input := rfl
@[simp] theorem compress_responses (src : Block) (s : State) : (compress src s).responses = s.responses := rfl
@[simp] theorem compress_draws (src : Block) (s : State) : (compress src s).draws = s.draws := rfl
@[simp] theorem compress_compressions (src : Block) (s : State) :
    (compress src s).compressions = s.compressions + 1 := rfl

@[simp] theorem initContext_h (s : State) : (initContext s).h = hInit := rfl
@[simp] theorem initContext_countHi (s : State) : (initContext s).countHi = 0 := rfl
@[simp] theorem initContext_countLo (s : State) : (initContext s).countLo = 0 := rfl
@[simp] theorem initContext_buf (s : State) : (initContext s).buf = s.buf := rfl
@[simp] theorem initContext_fsm (s : State) : (initContext s).fsm = s.fsm := rfl
@[simp] theorem initContext_work (s : State) : (initContext s).work = s.work := rfl
@[simp] theorem initContext_inFlight (s : State) : (initContext s).inFlight = s.inFlight := rfl
@[simp] theorem initContext_input (s : State) : (initContext s).input = s.input := rfl
@[simp] theorem initContext_responses (s : State) : (initContext s).responses = s.responses := rfl
@[simp] theorem initContext_draws (s : State) : (initContext s).draws = s.draws := rfl
@[simp] theorem initContext_compressions (s : State) : (initContext s).compressions = s.compressions := rfl

@[simp] theorem writeBuf_h (off : Nat) (d : List Byte) (s : State) : (s.writeBuf off d).h = s.h := rfl
@[simp] theorem writeBuf_countHi (off : Nat) (d : List Byte) (s : State) :
    (s.writeBuf off d).countHi = s.countHi := rfl
@[simp] theorem writeBuf_countLo (off : Nat) (d : List Byte) (s : State) :
    (s.writeBuf off d).countLo = s.countLo := rfl
@[simp] theorem writeBuf_buf (off : Nat) (d : List Byte) (s : State) :
    (s.writeBuf off d).buf = writeBytes off d s.buf := rfl
@[simp] theorem writeBuf_fsm (off : Nat) (d : List Byte) (s : State) : (s.writeBuf off d).fsm = s.fsm := rfl
@[simp] theorem writeBuf_work (off : Nat) (d : List Byte) (s : State) :
    (s.writeBuf off d).work = s.work := rfl
@[simp] theorem writeBuf_inFlight (off : Nat) (d : List Byte) (s : State) :
    (s.writeBuf off d).inFlight = s.inFlight := rfl
@[simp] theorem writeBuf_input (off : Nat) (d : List Byte) (s : State) :
    (s.writeBuf off d).input = s.input := rfl
@[simp] theorem writeBuf_responses (off : Nat) (d : List Byte) (s : State) :
    (s.writeBuf off d).responses = s.responses := rfl
@[simp] theorem writeBuf_draws (off : Nat) (d : List Byte) (s : State) :
    (s.writeBuf off d).draws = s.draws := rfl
@[simp] theorem writeBuf_compressions (off : Nat) (d : List Byte) (s : State) :
    (s.writeBuf off d).compressions = s.compressions := rfl

@[simp] theorem addCount_h (n : Nat) (s : State) : (s.addCount n).h = s.h := rfl
@[simp] theorem addCount_countHi (n : Nat) (s : State) :
    (s.addCount n).countHi = addCountHi s.countHi s.countLo n := rfl
@[simp] theorem addCount_countLo (n : Nat) (s : State) :
    (s.addCount n).countLo = addCountLo s.countLo n := rfl
@[simp] theorem addCount_buf (n : Nat) (s : State) : (s.addCount n).buf = s.buf := rfl
@[simp] theorem addCount_fsm (n : Nat) (s : State) : (s.addCount n).fsm = s.fsm := rfl
@[simp] theorem addCount_work (n : Nat) (s : State) : (s.addCount n).work = s.work := rfl
@[simp] theorem addCount_inFlight (n : Nat) (s : State) : (s.addCount n).inFlight = s.inFlight := rfl
@[simp] theorem addCount_input (n : Nat) (s : State) : (s.addCount n).input = s.input := rfl
@[simp] theorem addCount_responses (n : Nat) (s : State) : (s.addCount n).responses = s.responses := rfl
@[simp] theorem addCount_draws (n : Nat) (s : State) : (s.addCount n).draws = s.draws := rfl
@[simp] theorem addCount_compressions (n : Nat) (s : State) :
    (s.addCount n).compressions = s.compressions := rfl

@[simp] theorem finish_h (p : State) : (finish p).h = p.h := by simp [finish]
@[simp] theorem finish_countHi (p : State) : (finish p).countHi = p.countHi := by simp [finish]
@[simp] theorem finish_countLo (p : State) : (finish p).countLo = p.countLo := by simp [finish]
@[simp] theorem finish_fsm (p : State) : (finish p).fsm = .final := by simp [finish]
@[simp] theorem finish_inFlight (p : State) : (finish p).inFlight = none := by simp [finish]
@[simp] theorem finish_input (p : State) : (finish p).input = p.input := by simp [finish]
@[simp] theorem finish_responses (p : State) : (finish p).responses = p.responses ++ [⟨.ok, p.digest⟩] := by simp [finish, State.digest]
@[simp] theorem finish_draws (p : State) : (finish p).draws = p.draws + 1 := by simp [finish]
@[simp] theorem finish_compressions (p : State) : (finish p).compressions = p.compressions := by simp [finish]

end Sys2Proof.Machine
end

