-- ==== Sys2Proof/Laws/Compressor.lean ====
section
/-! SUPPORT. The compressor's small lemmas: rotl as the library's rotation, words from bytes, the window's slots (R100, R51, R105). -/

namespace Sys2Proof.Machine

/-- The formula of R100 is the library's rotation. -/
theorem rotl_eq_rotateLeft (x : Word) (n : Nat) (h1 : 1 ≤ n) (h2 : n ≤ 31) : rotl x n = x.rotateLeft n := by
  rw [BitVec.rotateLeft_def, Nat.mod_eq_of_lt (by omega)]; rfl

/-- The value of a big-endian word (R51). -/
theorem be32_toNat (p q r s : Byte) :
    (be32 p q r s).toNat = p.toNat * 2 ^ 24 + q.toNat * 2 ^ 16 + r.toNat * 2 ^ 8 + s.toNat := by
  have := p.isLt; have := q.isLt; have := r.isLt; have := s.isLt
  simp only [be32, BitVec.toNat_append, Nat.shiftLeft_eq]
  rw [Nat.mul_comm _ (2 ^ 8), ← Nat.two_pow_add_eq_or_of_lt (by omega), Nat.mul_comm _ (2 ^ 8),
    ← Nat.two_pow_add_eq_or_of_lt (by omega), Nat.mul_comm _ (2 ^ 8), ← Nat.two_pow_add_eq_or_of_lt (by omega)]
  omega

theorem slot_congr {a b : Nat} (h : a % 16 = b % 16) : slot a = slot b := Fin.ext h

theorem slot_ne {a b : Nat} (h : a % 16 ≠ b % 16) : slot a ≠ slot b := fun e => h (congrArg Fin.val e)

/-- Expansion writes the slot of its round (R105). -/
theorem expand_get_self (t : Nat) (w : Window) :
    (expand t w).get (slot t) =
      rotl (w.get (slot (t + 13)) ^^^ w.get (slot (t + 8)) ^^^ w.get (slot (t + 2)) ^^^ w.get (slot t)) 1 := by
  simp [expand, Vector.get_eq_getElem]

/-- Expansion leaves every other slot (R105). -/
theorem expand_get_ne (t : Nat) (w : Window) (k : Fin 16) (h : k ≠ slot t) : (expand t w).get k = w.get k := by
  simp only [expand, Vector.get_eq_getElem]
  exact Vector.getElem_set_ne _ _ fun e => h (Fin.ext e.symm)

/-- Rounds before 16 leave the window (R101). -/
theorem schedule_early (t : Nat) (x : Work) (h : t < 16) : schedule t x = x := if_neg (by omega)

/-- From round 16 on the window is expanded (R105). -/
theorem schedule_late (t : Nat) (x : Work) (h : 16 ≤ t) : (schedule t x).w = expand t x.w := by rw [schedule, if_pos h]

/-- ROUND writes a..e and t, and leaves the window (R107). -/
@[simp] theorem round_w (t : Nat) (x : Work) : (round t x).w = x.w := rfl

/-- One word's bytes give the word back (R51, R9). -/
theorem be32_bytes (w : Word) :
    be32 (w.extractLsb' 24 8) (w.extractLsb' 16 8) (w.extractLsb' 8 8) (w.extractLsb' 0 8) = w := by
  apply BitVec.eq_of_toNat_eq
  have := w.isLt
  rw [be32_toNat]
  simp only [BitVec.extractLsb'_toNat, Nat.shiftRight_eq_div_pow]
  omega

theorem serialize_length (h : Hash) : (serialize h).length = 20 := rfl

end Sys2Proof.Machine
end

