-- ==== Sys2Proof/Laws/Decode.lean ====
section
/-! SUPPORT. The fields of a header (R71): what the encoder puts in each, that the three fields are the whole header, and the one case
split of the decoder. -/

namespace Sys2Proof

theorem lenFits_iff (len : Int) : lenFits len = true ↔ -2147483648 ≤ len ∧ len ≤ 2147483647 := by
  simp [lenFits]

/-- A LEN field always fits (R72). -/
theorem sint32_fits (v : BitVec 32) : lenFits (sint32 v) = true := by
  have h1 := BitVec.toInt_lt (x := v)
  have h2 := BitVec.le_toInt (x := v)
  norm_num at h1 h2
  rw [lenFits_iff, sint32]
  omega

/-- The encoder puts each field in its place (R71). -/
theorem encode_fields (i : Instr) : hdrRsvd (encode i) = 0 ∧ hdrOp (encode i) = i.op ∧ hdrLen (encode i) = i.lenField := by
  refine ⟨?_, ?_, ?_⟩ <;> apply BitVec.eq_of_getElem_eq <;> intro k hk <;>
    simp only [hdrRsvd, hdrOp, hdrLen, encode, BitVec.getElem_extractLsb', BitVec.getLsbD_append]
  · simp
    omega
  · rw [if_pos (by omega)]
    simp [BitVec.getLsbD_eq_getElem (by omega : k < 8)]
  · rw [if_neg (by omega), if_neg (by omega), show 32 + k - 8 - 24 = k by omega, BitVec.getLsbD_eq_getElem]

/-- A header is its three fields (R71). -/
theorem header_eq_fields (hdr : BitVec 64) : hdr = hdrLen hdr ++ hdrRsvd hdr ++ hdrOp hdr := by
  apply BitVec.eq_of_toNat_eq
  have h := hdr.isLt
  have h8 : (hdrOp hdr).toNat < 2 ^ 8 := (hdrOp hdr).isLt
  have h24 : (hdrRsvd hdr).toNat < 2 ^ 24 := (hdrRsvd hdr).isLt
  rw [BitVec.toNat_append, BitVec.toNat_append, Nat.shiftLeft_eq, Nat.shiftLeft_eq, Nat.mul_comm _ (2 ^ 24),
    ← Nat.two_pow_add_eq_or_of_lt h24, Nat.mul_comm _ (2 ^ 8), ← Nat.two_pow_add_eq_or_of_lt h8]
  simp only [hdrLen, hdrRsvd, hdrOp, BitVec.extractLsb'_toNat, Nat.shiftRight_eq_div_pow]
  omega

theorem header_toNat (hdr : BitVec 64) :
    hdr.toNat = (hdrLen hdr).toNat * 4294967296 + (hdrRsvd hdr).toNat * 256 + (hdrOp hdr).toNat := by
  have h := hdr.isLt
  simp only [hdrLen, hdrRsvd, hdrOp, BitVec.extractLsb'_toNat, Nat.shiftRight_eq_div_pow]
  omega

/-- What a header that decodes looks like (R76): the one place where the decoder's cases are split. -/
theorem decode_ok {hdr : BitVec 64} {n : Nat} {i : Instr} (h : decode hdr n = .ok i) :
    hdrRsvd hdr = 0 ∧
      ((i = .init ∧ hdrOp hdr = 0x01 ∧ hdrLen hdr = 0 ∧ n = 0) ∨
       (i = .update (sint32 (hdrLen hdr)) ∧ hdrOp hdr = 0x02) ∨
       (i = .finalize ∧ hdrOp hdr = 0x03 ∧ hdrLen hdr = 0 ∧ n = 0)) := by
  unfold decode decodeBare at h
  split_ifs at h <;> simp_all

/-- What a header that does not decode looks like (R171). -/
theorem decode_error {hdr : BitVec 64} {n : Nat} {e : Illegal} (h : decode hdr n = .error e) :
    hdrRsvd hdr ≠ 0 ∨ (hdrOp hdr ≠ 0x01 ∧ hdrOp hdr ≠ 0x02 ∧ hdrOp hdr ≠ 0x03) ∨
      ((hdrOp hdr = 0x01 ∨ hdrOp hdr = 0x03) ∧ (hdrLen hdr ≠ 0 ∨ n ≠ 0)) := by
  unfold decode decodeBare at h
  split_ifs at h <;> simp_all

end Sys2Proof
end

