-- ==== Sys2Proof/Laws/Operands.lean ====
section
/-! SUPPORT. COUNT, the fill and the valid prefix (R21, R24, R133), BUF writes, payload windows. -/

namespace Sys2Proof.Machine

/-- COUNT and the fill depend on COUNT_HI and COUNT_LO alone. -/
theorem count_congr {s t : State} (hi : t.countHi = s.countHi) (lo : t.countLo = s.countLo) : t.count = s.count := by
  simp only [State.count, hi, lo]

theorem fill_congr {s t : State} (hc : t.count = s.count) : t.fill = s.fill := by
  simp only [State.fill, hc]

theorem validBytes_congr {s t : State} (hc : t.count = s.count) (hb : t.buf = s.buf) :
    t.validBytes = s.validBytes := by
  simp only [State.validBytes, fill_congr hc, hb]

@[simp] theorem count_accept (c : Command) (rest : List Input) (s : State) : (accept c rest s).count = s.count := rfl
@[simp] theorem count_settleBuf (s : State) : s.settleBuf.count = s.count :=
  count_congr (settleBuf_countHi s) (settleBuf_countLo s)
@[simp] theorem count_respond (st : Status) (dg : List Byte) (s : State) : (respond st dg s).count = s.count := rfl
@[simp] theorem count_setFsm (f : Fsm) (s : State) : (s.setFsm f).count = s.count := rfl
@[simp] theorem count_compress (src : Block) (s : State) : (compress src s).count = s.count := rfl
@[simp] theorem count_writeBuf (off : Nat) (d : List Byte) (s : State) : (s.writeBuf off d).count = s.count := rfl
@[simp] theorem count_initContext (s : State) : (initContext s).count = 0 := by
  simp [State.count]

/-- `j = COUNT[8:3]` is `(COUNT / 8) mod 64` (R24). -/
theorem fill_eq (s : State) : s.fill = s.count.toNat / 8 % 64 := by
  simp only [State.fill, BitVec.extractLsb'_toNat, Nat.shiftRight_eq_div_pow]

theorem fill_lt (s : State) : s.fill < 64 := by rw [fill_eq]; omega

/-- `COUNT[8:0]` is `COUNT mod 512`. -/
theorem countMod512_eq (s : State) : s.countMod512 = s.count.toNat % 512 := by
  simp [State.countMod512, BitVec.extractLsb'_toNat]

theorem count_toNat (s : State) : s.count.toNat = s.countHi.toNat * 4294967296 + s.countLo.toNat := by
  have := s.countLo.isLt
  simp only [State.count, BitVec.toNat_append, Nat.shiftLeft_eq]
  rw [Nat.mul_comm, ← Nat.two_pow_add_eq_or_of_lt this]

/-- The two words of R133, with the carry between them, add 8·len to COUNT modulo 2^64. -/
theorem count_addCount (n : Nat) (s : State) : (s.addCount n).count = s.count + BitVec.ofNat 64 (8 * n) := by
  apply BitVec.eq_of_toNat_eq
  have h1 := s.countHi.isLt
  have h2 := s.countLo.isLt
  rw [BitVec.toNat_add, count_toNat, count_toNat]
  simp only [addCount_countHi, addCount_countLo, addCountHi, addCountLo, lowSum, bitIncrement, BitVec.toNat_add,
    BitVec.toNat_setWidth, BitVec.extractLsb'_toNat, BitVec.toNat_ofNat, Nat.shiftRight_eq_div_pow]
  omega

theorem fill_addCount (n : Nat) (s : State) : (s.addCount n).fill = (s.fill + n) % 64 := by
  rw [fill_eq, fill_eq, count_addCount, BitVec.toNat_add, BitVec.toNat_ofNat]
  omega

@[simp] theorem validBytes_length (s : State) : s.validBytes.length = s.fill := by
  have := fill_lt s
  simp [State.validBytes]; omega

/-- What the feeder's byte writes leave in BUF (R131). -/
theorem toList_writeBytes (off : Nat) (d : List Byte) (buf : Block) (h : off + d.length ≤ 64) :
    (writeBytes off d buf).toList = buf.toList.take off ++ d ++ buf.toList.drop (off + d.length) := by
  induction d generalizing off buf with
  | nil => simp [writeBytes]
  | cons x xs ih =>
    simp only [List.length_cons] at h
    rw [writeBytes, ih (off + 1) _ (by omega)]
    have hlt : off < buf.toList.length := by rw [Vector.length_toList]; omega
    have hset : (buf.setIfInBounds off x).toList = buf.toList.set off x := by simp
    rw [hset, List.take_succ_eq_append_getElem (by simpa using hlt), List.take_set_of_le (le_refl off)]
    simp only [List.getElem_set_self, List.append_assoc, List.singleton_append, List.length_cons]
    rw [List.drop_set_of_lt (by omega), show off + 1 + xs.length = off + (xs.length + 1) by omega]

/-- A block is the window at the front of its own bytes. -/
theorem window_toList (b : Block) (l : List Byte) : window (b.toList ++ l) = b := by
  apply Vector.ext
  intro i hi
  simp [window, List.getD, List.getElem?_append]

theorem window_append (a b : List Byte) (h : 64 ≤ a.length) : window (a ++ b) = window a := by
  apply Vector.ext
  intro i hi
  simp [window, List.getD, List.getElem?_append_left (by omega : i < a.length)]

/-- The window reads the sequence's own bytes. -/
theorem window_getElem (d : List Byte) (h : 64 ≤ d.length) (i : Nat) (hi : i < 64) :
    (window d)[i] = d[i]'(by omega) := by
  simp [window, List.getD, List.getElem?_eq_getElem (by omega : i < d.length)]

/-- Only the stale bytes are drawn (R25). -/
theorem drawStale_getElem (draw j : Nat) (buf : Block) (i : Nat) (hi : i < 64) :
    (drawStale draw j buf)[i] = if i < j then buf[i] else Config.freeByte draw i buf[i] := by
  simp [drawStale]

theorem drawStale_take (draw j : Nat) (buf : Block) : (drawStale draw j buf).toList.take j = buf.toList.take j := by
  apply List.ext_getElem
  · simp
  · intro i h1 h2
    simp at h1
    simp [drawStale_getElem, h1.1]

/-- The valid prefix survives the drawing of stale bytes (R24, R25). -/
@[simp] theorem validBytes_settleBuf (s : State) : s.settleBuf.validBytes = s.validBytes := by
  simp only [State.validBytes, fill_congr (count_settleBuf s), settleBuf_buf, drawStale_take]

@[simp] theorem validBytes_respond (st : Status) (dg : List Byte) (s : State) :
    (respond st dg s).validBytes = s.validBytes := rfl

@[simp] theorem validBytes_setFsm (f : Fsm) (s : State) : (s.setFsm f).validBytes = s.validBytes := rfl

end Sys2Proof.Machine
end

