-- ==== Sys2Proof/Laws/Feeder.lean ====
section
/-! SUPPORT. What absorb does, said once (R131, R134): `Fed d s t`, and that it composes. -/

namespace Sys2Proof.Machine

/-! `compress*` over whole blocks (R135). -/

theorem blocks_take (n : Nat) (d : List Byte) (h : 64 * n ≤ d.length) : blocks n (d.take (64 * n)) = blocks n d := by
  induction n generalizing d with
  | zero => rfl
  | succ n ih =>
    have hw : window (d.take (64 * (n + 1))) = window d := by
      rw [← window_append (d.take (64 * (n + 1))) (d.drop (64 * (n + 1))) (by simp; omega), List.take_append_drop]
    have hd : (d.take (64 * (n + 1))).drop 64 = (d.drop 64).take (64 * n) := by
      rw [List.drop_take]; congr 1
    rw [blocks, blocks, hw, hd, ih _ (by simp; omega)]

theorem blocks_append (m n : Nat) (a b : List Byte) (h : a.length = 64 * m) :
    blocks (m + n) (a ++ b) = blocks m a ++ blocks n b := by
  induction m generalizing a with
  | zero =>
    have ha : a = [] := List.length_eq_zero_iff.mp (by omega)
    simp [ha, blocks]
  | succ m ih =>
    rw [show m + 1 + n = (m + n) + 1 by omega, blocks, blocks, window_append a b (by omega),
      List.drop_append_of_le_length (by omega), ih _ (by simp; omega), List.cons_append]

@[simp] theorem blocks_length (n : Nat) (d : List Byte) : (blocks n d).length = n := by
  induction n generalizing d with
  | zero => rfl
  | succ n ih => simp [blocks, ih]

@[simp] theorem wholeBlocks_append_tailBytes (m : List Byte) : wholeBlocks m ++ tailBytes m = m :=
  List.take_append_drop _ _

theorem wholeBlocks_length (m : List Byte) : (wholeBlocks m).length = 64 * (m.length / 64) := by
  simp [wholeBlocks]; omega

theorem tailBytes_length (m : List Byte) : (tailBytes m).length = m.length % 64 := by
  simp [tailBytes]; omega

theorem compressStar_append (h : Hash) (a b : List Byte) (n : Nat) (ha : a.length = 64 * n) :
    compressStar h (a ++ b) = compressStar (compressStar h a) b := by
  have h1 : (a ++ b).length / 64 = n + b.length / 64 := by simp; omega
  have h2 : a.length / 64 = n := by omega
  rw [compressStar, h1, blocks_append n _ a b ha, List.foldl_append, compressStar, compressStar, h2]

theorem compressStar_short (h : Hash) (d : List Byte) (hd : d.length < 64) : compressStar h d = h := by
  rw [compressStar, show d.length / 64 = 0 by omega]; rfl

theorem compressStar_wholeBlocks (h : Hash) (d : List Byte) : compressStar h (wholeBlocks d) = compressStar h d := by
  conv_rhs => rw [← wholeBlocks_append_tailBytes d]
  rw [compressStar_append _ _ _ _ (wholeBlocks_length d),
    compressStar_short _ (tailBytes d) (by rw [tailBytes_length]; omega)]

theorem compressStar_cons (h : Hash) (d : List Byte) (hd : 64 ≤ d.length) :
    compressStar h d = compressStar (compressHash h (window d)) (d.drop 64) := by
  rw [compressStar, compressStar, show d.length / 64 = (d.drop 64).length / 64 + 1 by simp; omega, blocks]
  rfl

theorem tailBytes_drop (d : List Byte) (hd : 64 ≤ d.length) : tailBytes (d.drop 64) = tailBytes d := by
  rw [tailBytes, tailBytes, List.drop_drop, List.length_drop]
  congr 1; omega

theorem tailBytes_short (d : List Byte) (hd : d.length < 64) : tailBytes d = d := by
  rw [tailBytes, show d.length / 64 = 0 by omega]; rfl

theorem tailBytes_append (a b : List Byte) (n : Nat) (ha : a.length = 64 * n) : tailBytes (a ++ b) = tailBytes b := by
  rw [tailBytes, tailBytes, show 64 * ((a ++ b).length / 64) = a.length + 64 * (b.length / 64) by simp; omega,
    List.drop_append, List.drop_eq_nil_of_le (by omega), List.nil_append, Nat.add_sub_cancel_left]

/-- Feeding more bytes needs only the tail of what came before (R135). -/
theorem compressStar_tail (h : Hash) (a b : List Byte) :
    compressStar h (a ++ b) = compressStar (compressStar h a) (tailBytes a ++ b) := by
  conv_lhs => rw [← wholeBlocks_append_tailBytes a, List.append_assoc]
  rw [compressStar_append _ _ _ _ (wholeBlocks_length a), compressStar_wholeBlocks]

theorem tailBytes_tail (a b : List Byte) : tailBytes (tailBytes a ++ b) = tailBytes (a ++ b) := by
  conv_rhs => rw [← wholeBlocks_append_tailBytes a, List.append_assoc]
  rw [tailBytes_append _ _ _ (wholeBlocks_length a)]

/-! The streaming loop (R131). -/

/-- What the loop leaves: the tail of the bytes, and a state that differs in H, the working registers and the work count. -/
structure Streamed (d : List Byte) (s : State) (p : List Byte × State) : Prop where
  rest : p.1 = tailBytes d
  hash : p.2.h = compressStar s.h d
  compressions : p.2.compressions = s.compressions + d.length / 64
  countHi : p.2.countHi = s.countHi
  countLo : p.2.countLo = s.countLo
  buf : p.2.buf = s.buf
  fsm : p.2.fsm = s.fsm
  inFlight : p.2.inFlight = s.inFlight
  input : p.2.input = s.input
  responses : p.2.responses = s.responses
  draws : p.2.draws = s.draws

theorem stream_streamed (fuel : Nat) (d : List Byte) (s : State) (hf : d.length / 64 ≤ fuel) :
    Streamed d s (stream fuel d s) := by
  have short (d : List Byte) (s : State) (hd : d.length < 64) : Streamed d s (d, s) := by
    constructor <;> simp [tailBytes_short d hd, compressStar_short s.h d hd]
    omega
  induction fuel generalizing d s with
  | zero => exact short d s (by omega)
  | succ fuel ih =>
    by_cases hd : 63 < d.length
    · have h := ih (d.drop 64) (compress (window d) s) (by simp; omega)
      rw [stream, if_pos hd]
      exact {
        rest := h.rest.trans (tailBytes_drop d hd)
        hash := h.hash.trans (compressStar_cons s.h d hd).symm
        compressions := by rw [h.compressions]; simp; omega
        countHi := h.countHi, countLo := h.countLo, buf := h.buf, fsm := h.fsm, inFlight := h.inFlight
        input := h.input, responses := h.responses, draws := h.draws }
    · rw [stream, if_neg hd]
      exact short d s (by omega)

/-- The loop's remainder is shorter than a block: the fuel `absorb` gives it is enough. -/
theorem stream_rest_length (d : List Byte) (s : State) : (stream d.length d s).1.length < 64 := by
  rw [(stream_streamed d.length d s (by omega)).rest, tailBytes_length]; omega

/-! absorb (R131). -/

/-- `t` is `s` after the feeder has taken the bytes `d`: everything but the working registers and the stale bytes of BUF. -/
structure Fed (d : List Byte) (s t : State) : Prop where
  hash : t.h = compressStar s.h (s.validBytes ++ d)
  valid : t.validBytes = tailBytes (s.validBytes ++ d)
  count : t.count = s.count + BitVec.ofNat 64 (8 * d.length)
  compressions : t.compressions = s.compressions + (s.fill + d.length) / 64
  fsm : t.fsm = s.fsm
  inFlight : t.inFlight = s.inFlight
  input : t.input = s.input
  responses : t.responses = s.responses
  draws : t.draws = s.draws

theorem Fed.fill {d : List Byte} {s t : State} (h : Fed d s t) : t.fill = (s.fill + d.length) % 64 := by
  rw [← validBytes_length t, h.valid, tailBytes_length, List.length_append, validBytes_length]

/-- The bytes fit in the buffer: they are copied behind the valid prefix (R131, step 3). -/
theorem fed_copied (d : List Byte) (s : State) (hfit : s.fill + d.length ≤ 63) :
    Fed d s ((s.writeBuf s.fill d).addCount d.length) where
  hash := by
    rw [addCount_h, writeBuf_h, compressStar_short s.h (s.validBytes ++ d) (by simp; omega)]
  valid := by
    rw [tailBytes_short _ (by simp; omega), State.validBytes, fill_addCount, fill_congr (count_writeBuf _ _ s),
      addCount_buf, writeBuf_buf, toList_writeBytes _ _ _ (by omega), List.take_append_of_le_length (by simp; omega),
      List.take_of_length_le (by simp; omega), State.validBytes]
  count := by rw [count_addCount, count_writeBuf]
  compressions := by rw [addCount_compressions, writeBuf_compressions]; omega
  fsm := rfl
  inFlight := rfl
  input := rfl
  responses := rfl
  draws := rfl

/-- The buffer fills: `f` is `s` with BUF filled from the front of `d`, and `p` what the streaming loop leaves after BUF has been
compressed (R131, steps 2 and 3). -/
theorem fed_streamed (d : List Byte) (s f : State) (p : List Byte × State) (hfull : 63 < s.fill + d.length)
    (hf : f = s.writeBuf s.fill (d.take (64 - s.fill)))
    (hp : Streamed (d.drop (64 - s.fill)) (compress f.buf f) p) :
    Fed d s ((p.2.writeBuf 0 p.1).addCount d.length) := by
  have hj := fill_lt s
  have hbuf : f.buf.toList = s.validBytes ++ d.take (64 - s.fill) := by
    rw [hf, writeBuf_buf, toList_writeBytes _ _ _ (by simp; omega), State.validBytes, List.drop_eq_nil_of_le,
      List.append_nil]
    simp; omega
  have hsplit : s.validBytes ++ d = f.buf.toList ++ d.drop (64 - s.fill) := by
    rw [hbuf, List.append_assoc, List.take_append_drop]
  have hdrop : (s.validBytes ++ d).drop 64 = d.drop (64 - s.fill) := by
    rw [hsplit, List.drop_append_of_le_length (by simp), List.drop_eq_nil_of_le (by simp), List.nil_append]
  have hlong : 64 ≤ (s.validBytes ++ d).length := by simp; omega
  have hcount : p.2.count = s.count := count_congr (by rw [hp.countHi, hf]; rfl) (by rw [hp.countLo, hf]; rfl)
  have hrest : p.1.length = (s.fill + d.length) % 64 := by rw [hp.rest, tailBytes_length]; simp; omega
  exact {
    hash := by
      rw [addCount_h, writeBuf_h, hp.hash, compressStar_cons _ _ hlong, hdrop, compress_h, hsplit, window_toList, hf,
        writeBuf_h]
    valid := by
      rw [State.validBytes, fill_addCount, fill_congr (count_writeBuf 0 p.1 p.2), fill_congr hcount, addCount_buf,
        writeBuf_buf, toList_writeBytes _ _ _ (by omega), List.take_zero, List.nil_append,
        List.take_append_of_le_length (by omega), List.take_of_length_le (by omega), hp.rest, ← hdrop,
        tailBytes_drop _ hlong]
    count := by rw [count_addCount, count_writeBuf, hcount]
    compressions := by
      rw [addCount_compressions, writeBuf_compressions, hp.compressions, compress_compressions, hf,
        writeBuf_compressions, List.length_drop]
      omega
    fsm := by rw [addCount_fsm, writeBuf_fsm, hp.fsm, compress_fsm, hf, writeBuf_fsm]
    inFlight := by rw [addCount_inFlight, writeBuf_inFlight, hp.inFlight, compress_inFlight, hf, writeBuf_inFlight]
    input := by rw [addCount_input, writeBuf_input, hp.input, compress_input, hf, writeBuf_input]
    responses := by rw [addCount_responses, writeBuf_responses, hp.responses, compress_responses, hf, writeBuf_responses]
    draws := by rw [addCount_draws, writeBuf_draws, hp.draws, compress_draws, hf, writeBuf_draws] }

/-- `absorb(D, len)`, said once (R131, R134). -/
theorem absorb_fed (d : List Byte) (s : State) : Fed d s (absorb d s) := by
  by_cases hfull : 63 < s.fill + d.length
  · simp only [absorb, if_pos hfull]
    exact fed_streamed d s _ _ hfull rfl (stream_streamed _ _ _ (by rw [List.length_drop]; omega))
  · simp only [absorb, if_neg hfull]
    exact fed_copied d s (by omega)

/-! The feeder does not read which command is in flight (its payload is what `updateContext` reads, R78). -/

/-- A state with another command in flight. -/
def State.withFlight (x : Option Command) (s : State) : State := { s with inFlight := x }

theorem withFlight_writeBuf (x : Option Command) (off : Nat) (d : List Byte) (s : State) :
    (s.withFlight x).writeBuf off d = (s.writeBuf off d).withFlight x := rfl

theorem withFlight_addCount (x : Option Command) (n : Nat) (s : State) :
    (s.withFlight x).addCount n = (s.addCount n).withFlight x := rfl

theorem withFlight_compress (x : Option Command) (src : Block) (s : State) :
    compress src (s.withFlight x) = (compress src s).withFlight x := rfl

theorem withFlight_stream (x : Option Command) (fuel : Nat) (d : List Byte) (s : State) :
    stream fuel d (s.withFlight x) = ((stream fuel d s).1, (stream fuel d s).2.withFlight x) := by
  induction fuel generalizing d s with
  | zero => rfl
  | succ fuel ih =>
    rw [stream, stream, withFlight_compress]
    split
    · exact ih _ _
    · rfl

theorem withFlight_absorb (x : Option Command) (d : List Byte) (s : State) :
    absorb d (s.withFlight x) = (absorb d s).withFlight x := by
  have hfill : (s.withFlight x).fill = s.fill := rfl
  have hbuf (t : State) : (t.withFlight x).buf = t.buf := rfl
  simp only [absorb, hfill, withFlight_writeBuf, hbuf, withFlight_compress, withFlight_stream, withFlight_addCount]
  split <;> rfl

/-- Two absorbs are one absorb of the bytes joined (R136). -/
theorem Fed.trans {d e : List Byte} {s t u : State} (h : Fed d s t) (k : Fed e t u) : Fed (d ++ e) s u where
  hash := by
    rw [k.hash, h.hash, h.valid, ← List.append_assoc, compressStar_tail s.h (s.validBytes ++ d) e]
  valid := by rw [k.valid, h.valid, tailBytes_tail, List.append_assoc]
  count := by
    rw [k.count, h.count, List.length_append, Nat.mul_add, BitVec.ofNat_add, BitVec.add_assoc]
  compressions := by
    rw [k.compressions, h.compressions, h.fill, List.length_append]; omega
  fsm := k.fsm.trans h.fsm
  inFlight := k.inFlight.trans h.inFlight
  input := k.input.trans h.input
  responses := k.responses.trans h.responses
  draws := k.draws.trans h.draws

/-- Absorbing nothing changes nothing (R131, len = 0). -/
theorem Fed.refl (s : State) : Fed [] s s where
  hash := by rw [List.append_nil, compressStar_short _ _ (by rw [validBytes_length]; exact fill_lt s)]
  valid := by rw [List.append_nil, tailBytes_short _ (by rw [validBytes_length]; exact fill_lt s)]
  count := by simp
  compressions := by have := fill_lt s; simp; omega
  fsm := rfl
  inFlight := rfl
  input := rfl
  responses := rfl
  draws := rfl

/-- A state with the Context of message `m`, fed `d`, has that of `m ++ d` (R135). -/
theorem Fed.holds {d m : List Byte} {s t : State} (h : Fed d s t) (hm : Holds s m) : Holds t (m ++ d) where
  count := by
    rw [h.count, hm.count, bitLength, bitLength, List.length_append, Nat.mul_add, BitVec.ofNat_add]
  hash := by
    rw [h.hash, hm.hash, hm.valid, compressStar_wholeBlocks, compressStar_wholeBlocks, ← compressStar_tail]
  valid := by rw [h.valid, hm.valid, tailBytes_tail]

end Sys2Proof.Machine
end

