-- ==== Sys2Proof/Laws/Finalizer.lean ====
section
/-! SUPPORT. What FINALIZE's padding does, said once (R150, R151). -/

namespace Sys2Proof.Machine

/-- COUNT stays a multiple of 8 (R22). -/
theorem Fed.aligned {d : List Byte} {s t : State} (h : Fed d s t) : t.count.toNat % 8 = s.count.toNat % 8 := by
  rw [h.count, BitVec.toNat_add, BitVec.toNat_ofNat]; omega

/-- The loop's test on COUNT is a test on the fill, when COUNT is a multiple of 8 (R151). -/
theorem countMod512_fill (s : State) (h : s.count.toNat % 8 = 0) : s.countMod512 = 8 * s.fill := by
  rw [countMod512_eq, fill_eq]; omega

/-- The zero-byte loop ends with the fill at 56, having fed `z = (56 − fill) mod 64` zero bytes (R151). -/
theorem padZeros_fed (fuel : Nat) (s : State) (h8 : s.count.toNat % 8 = 0) (hf : (56 + 64 - s.fill) % 64 ≤ fuel) :
    ∃ t, padZeros fuel s = some t ∧ Fed (List.replicate ((56 + 64 - s.fill) % 64) 0x00) s t := by
  have hj := fill_lt s
  have hc := countMod512_fill s h8
  induction fuel generalizing s with
  | zero =>
    have h56 : s.fill = 56 := by omega
    exact ⟨s, by rw [padZeros, if_pos (by omega)], by rw [h56]; exact Fed.refl s⟩
  | succ fuel ih =>
    by_cases h56 : s.fill = 56
    · exact ⟨s, by rw [padZeros, if_pos (by omega)], by rw [h56]; exact Fed.refl s⟩
    · have ha := absorb_fed [0x00] s
      have hfill : (absorb [0x00] s).fill = (s.fill + 1) % 64 := ha.fill
      have h8' : (absorb [0x00] s).count.toNat % 8 = 0 := by rw [ha.aligned, h8]
      obtain ⟨t, ht, hfed⟩ := ih (absorb [0x00] s) h8' (by omega) (fill_lt _) (countMod512_fill _ h8')
      refine ⟨t, by rw [padZeros, if_neg (by omega), ht], ?_⟩
      have hz : (56 + 64 - s.fill) % 64 = (56 + 64 - (absorb [0x00] s).fill) % 64 + 1 := by omega
      rw [hz, List.replicate_succ]
      exact ha.trans hfed

/-- The bytes FINALIZE feeds from fill r and count L (R150, R151). -/
def padding (r : Nat) (l : BitVec 64) : List Byte := 0x80 :: (List.replicate (zeroCount r) 0x00 ++ lengthBytes l)

theorem lengthBytes_length (l : BitVec 64) : (lengthBytes l).length = 8 := rfl

theorem padding_length (r : Nat) (l : BitVec 64) : (padding r l).length = padCount r := by
  simp [padding, padCount, lengthBytes_length]; omega

/-- The padding ends, and feeds exactly marker, zeros and length (R150, R151). -/
theorem padMessage_fed (s : State) (h8 : s.count.toNat % 8 = 0) :
    ∃ p, padMessage s = some p ∧ Fed (padding s.fill s.count) s p := by
  have hj := fill_lt s
  have ha := absorb_fed [0x80] s
  have hfill : (absorb [0x80] s).fill = (s.fill + 1) % 64 := ha.fill
  obtain ⟨z, hz, hfed⟩ := padZeros_fed 63 (absorb [0x80] s) (by rw [ha.aligned, h8]) (by omega)
  refine ⟨absorb (lengthBytes s.count) z, by simp only [padMessage, hz], ?_⟩
  have hn : (56 + 64 - (absorb [0x80] s).fill) % 64 = zeroCount s.fill := by rw [hfill, zeroCount]; omega
  rw [hn] at hfed
  exact (ha.trans hfed).trans (absorb_fed (lengthBytes s.count) z)

/-- From a COUNT that is no multiple of 8 the loop never reaches 448 (log 9). -/
theorem padZeros_none (fuel : Nat) (s : State) (h8 : s.count.toNat % 8 ≠ 0) : padZeros fuel s = none := by
  have hne : s.countMod512 ≠ 448 := by rw [countMod512_eq]; omega
  induction fuel generalizing s with
  | zero => rw [padZeros, if_neg hne]
  | succ fuel ih =>
    have h8' : (absorb [0x00] s).count.toNat % 8 ≠ 0 := by rw [(absorb_fed [0x00] s).aligned]; exact h8
    rw [padZeros, if_neg hne, ih _ h8' (by rw [countMod512_eq]; omega)]

theorem padMessage_none (s : State) (h8 : s.count.toNat % 8 ≠ 0) : padMessage s = none := by
  simp only [padMessage, padZeros_none 63 _ (by rw [(absorb_fed [0x80] s).aligned]; exact h8)]

/-- FINALIZE past its check stops only where its loop never ends (log 9). -/
theorem padMessage_isSome_iff (s : State) : (padMessage s).isSome ↔ s.count.toNat % 8 = 0 := by
  by_cases h8 : s.count.toNat % 8 = 0
  · obtain ⟨p, hp, -⟩ := padMessage_fed s h8
    simp [hp, h8]
  · simp [padMessage_none s h8, h8]

end Sys2Proof.Machine
end

