-- ==== Sys2Proof/Laws/PerInstr.lean ====
section
/-! SUPPORT. Per-instruction families: one lemma for each constructor of Instr. -/

namespace Sys2Proof.Laws

/-- The header of an instruction has RSVD = 0, the OP of its row, and its LEN field (R71, R73). -/
def HeaderFields.Statement (i : Instr) : Prop :=
  hdrRsvd (encode i) = 0 ∧ hdrOp (encode i) = i.op ∧ hdrLen (encode i) = i.lenField

theorem HeaderFields.init : HeaderFields.Statement .init := encode_fields .init

theorem HeaderFields.update (len : Int) : HeaderFields.Statement (.update len) := encode_fields (.update len)

theorem HeaderFields.finalize : HeaderFields.Statement .finalize := encode_fields .finalize

end Sys2Proof.Laws
end

