-- ==== Sys2Proof/Laws/Step.lean ====
section
/-! SUPPORT. What each meaning and a step can do, said once: the cases of UPDATE, of FINALIZE, and of a step. Every later proof cites these
and unfolds nothing. -/

namespace Sys2Proof.Machine

theorem core_run_succ (M : Host.Core) (k : Nat) (s : M.State) :
    M.run (k + 1) s = (match M.step s with
      | .next t => M.run k t
      | .fault r => .fault r
      | .refused r => .refused r) := rfl

/-- The host's run and the model's are one. -/
theorem run_eq_core_run (k : Nat) (s : State) : Machine.run k s = Host.Core.run core k s := by
  induction k generalizing s with
  | zero => rfl
  | succ k ih =>
    refine Eq.trans ?_ (core_run_succ core k s).symm
    have hstep : core.step s = step s := rfl
    rw [Machine.run, hstep]
    cases step s with
    | next t => exact ih t
    | fault r => rfl
    | refused r => rfl

/-- An error response (R174). -/
theorem raise_errored (e : Status) (s : State) : Errored e s (raise e s) := ⟨⟨rfl, rfl, rfl, rfl, rfl⟩, rfl, rfl, rfl, rfl⟩

theorem not_open_iff (s : State) : ¬ s.Open ↔ (s.fsm = .uninit ∨ s.fsm = .final) := by
  unfold State.Open
  cases s.fsm <;> simp

theorem stateError_of_open {s : State} (h : s.Open) : stateError s.fsm = none := by
  rcases h with h | h <;> rw [h] <;> rfl

theorem stateError_of_not_open {s : State} (h : ¬ s.Open) : stateError s.fsm = some .errState := by
  rcases (not_open_iff s).mp h with h | h <;> rw [h] <;> rfl

/-- UPDATE past its checks is an absorb that leaves FSM at ACCUM (R132). -/
structure Updated (d : List Byte) (s t : State) : Prop where
  hash : t.h = compressStar s.h (s.validBytes ++ d)
  valid : t.validBytes = tailBytes (s.validBytes ++ d)
  count : t.count = s.count + BitVec.ofNat 64 (8 * d.length)
  compressions : t.compressions = s.compressions + (s.fill + d.length) / 64
  fsm : t.fsm = .accum
  inFlight : t.inFlight = s.inFlight
  input : t.input = s.input
  responses : t.responses = s.responses
  draws : t.draws = s.draws

theorem updateContext_updated (len : Nat) (s : State) : Updated (s.payload.take len) s (updateContext len s) := by
  unfold updateContext
  split
  · next h0 =>
    have h := Fed.refl s
    rw [h0, List.take_zero]
    exact ⟨h.hash, h.valid, h.count, h.compressions, rfl, rfl, rfl, rfl, rfl⟩
  · have h := absorb_fed (s.payload.take len) s
    constructor <;> simp [h.hash, h.valid, h.count, h.compressions, h.inFlight, h.input, h.responses, h.draws]

/-- UPDATE's three cases (R132, R175): ERR_STATE, ERR_ARG, or the payload's first `len` bytes are absorbed. -/
theorem execUpdate_cases (len : Int) (s : State) :
    (¬ s.Open ∧ execUpdate len s = .next (raise .errState s)) ∨
    (s.Open ∧ (len < 0 ∨ (s.payload.length : Int) < len) ∧ execUpdate len s = .next (raise .errArg s)) ∨
    (∃ l : Nat, len = l ∧ s.Open ∧ l ≤ s.payload.length ∧
      execUpdate len s = .next (respond .ok [] (updateContext l s))) := by
  by_cases ho : s.Open
  · by_cases hl : len < 0 ∨ (s.payload.length : Int) < len
    · exact .inr (.inl ⟨ho, hl, by simp only [execUpdate, updateError, stateError_of_open ho, argError, if_pos hl]⟩)
    · obtain ⟨l, rfl⟩ := Int.eq_ofNat_of_zero_le (by omega : 0 ≤ len)
      refine .inr (.inr ⟨l, rfl, ho, by omega, ?_⟩)
      simp only [execUpdate, updateError, stateError_of_open ho, argError, if_neg hl, Int.toNat_natCast]
  · exact .inl ⟨ho, by simp only [execUpdate, updateError, stateError_of_not_open ho]⟩

/-- FINALIZE's three cases (R150): ERR_STATE, the padding is fed and the digest answered, or the loop never ends (log 9). -/
theorem execFinalize_cases (s : State) :
    (¬ s.Open ∧ execFinalize s = .next (raise .errState s)) ∨
    (s.Open ∧ s.count.toNat % 8 = 0 ∧
      ∃ p, Fed (padding s.fill s.count) s p ∧ execFinalize s = .next (finish p)) ∨
    (s.Open ∧ s.count.toNat % 8 ≠ 0 ∧ execFinalize s = .fault .paddingNeverEnds) := by
  by_cases ho : s.Open
  · by_cases h8 : s.count.toNat % 8 = 0
    · obtain ⟨p, hp, hf⟩ := padMessage_fed s h8
      exact .inr (.inl ⟨ho, h8, p, hf, by simp only [execFinalize, finalizeError, stateError_of_open ho, hp]⟩)
    · exact .inr (.inr ⟨ho, h8, by
        simp only [execFinalize, finalizeError, stateError_of_open ho, padMessage_none s h8]⟩)
  · exact .inl ⟨ho, by simp only [execFinalize, finalizeError, stateError_of_not_open ho]⟩

/-- A step's three cases by what stands at the port (R12). -/
theorem step_idle {s : State} (h : s.input = []) : step s = .next s := by
  simp only [step, h]

theorem step_command {s : State} {c : Command} {rest : List Input} (h : s.input = .command c :: rest) :
    step s = execute c (accept c rest s) := by
  simp only [step, h]

theorem step_reset {s : State} {c : Option Command} {rest : List Input} (h : s.input = .reset c :: rest) :
    step s = .next (resetEvent rest s) := by
  simp only [step, h]

/-- One command issued alone has nothing to stop (R81). -/
theorem issueAll_single (c : Command) (s : State) : issueAll [c] s = issue c s := by
  simp only [issueAll]
  cases issue c s with
  | next t => simp
  | fault r => rfl
  | refused r => rfl

/-- A COMPUTE line is COMPUTE (R81). -/
theorem runLine_compute (len : Option Int) (d : Data) (s : State) :
    runLine (.compute len d) s = compute (lenOr len d) d.bytes s := rfl

theorem runProgram_nil (s : State) : runProgram [] s = .next s := rfl

theorem runProgram_cons_next {l : Line} {ls : List Line} {s t : State} (h : runLine l s = .next t) :
    runProgram (l :: ls) s = runProgram ls t := by
  simp only [runProgram, h]

end Sys2Proof.Machine
end

