-- ==== Sys2Proof/Tests/Slice0.lean ====
section
/-! SUPPORT. The model's own tests, each on a small state and one step, and for each statement with hypotheses a witness that meets
them. Expected values are the spec's own: the vectors V<n> of 95_test_vectors.md, the examples of the rules, or words written out
from R71. -/

namespace Sys2Proof.Tests

open Machine

/-! ## Helpers -/

/-- A state in the given FSM state whose message so far is less than one block: H_INIT, the bytes in BUF, COUNT their bit count. -/
def stateAt (f : Fsm) (tail : List Byte) : State :=
  { State.reset with
    h := hInit
    countLo := BitVec.ofNat 32 (8 * tail.length)
    buf := writeBytes 0 tail State.reset.buf
    fsm := f }

/-- The bytes k, k + 1, … (V40's `pat`, from k). -/
def patFrom (k n : Nat) : List Byte := (List.range n).map fun i => BitVec.ofNat 8 (k + i)

/-- The ASCII bytes of "abc". -/
def abc : List Byte := [0x61, 0x62, 0x63]

/-- A command in flight with this payload. -/
def carrying (p : List Byte) (s : State) : State := { s with inFlight := some ⟨0, p⟩ }

/-- One command at the port. -/
def offered (hdr : BitVec 64) (p : List Byte) (s : State) : State := { s with input := [.command ⟨hdr, p⟩] }

/-- What a next state is tested on. -/
structure View where
  h : List Word
  countHi : Word
  countLo : Word
  fsm : Fsm
  valid : List Byte
  responses : List Response
  compressions : Nat
  deriving DecidableEq, Repr

def view (o : Host.Outcome State Fault Refusal) : Option View :=
  match o with
  | .next t => some ⟨t.h.toList, t.countHi, t.countLo, t.fsm, t.validBytes, t.responses, t.compressions⟩
  | _ => none

/-- The responses of a next state. -/
def answers (o : Host.Outcome State Fault Refusal) : Option (List Response) :=
  match o with
  | .next t => some t.responses
  | _ => none

theorem next_of_answers {o : Host.Outcome State Fault Refusal} {rs : List Response} (h : answers o = some rs) :
    ∃ t, o = .next t ∧ t.responses = rs := by
  cases o with
  | next t => exact ⟨t, rfl, by simpa [answers] using h⟩
  | fault r => cases h
  | refused r => cases h

/-! ## Well-formedness (R72): the one check, with ill-formed terms it refuses -/

theorem test_wf_refuses_len_above : Instr.wf (.update 2147483648) = false := by decide
theorem test_wf_refuses_len_below : Instr.wf (.update (-2147483649)) = false := by decide
theorem test_wf_accepts_bounds :
    Instr.wf (.update 2147483647) = true ∧ Instr.wf (.update (-2147483648)) = true ∧ Instr.wf .init = true ∧
      Instr.wf .finalize = true := by decide

/-! ## Decoding (V50; words written from R71 as LEN, RSVD, OP) -/

theorem test_decode_init : decode (0x00000000#32 ++ 0x000000#24 ++ 0x01#8) 0 = .ok .init := by decide
theorem test_decode_update : decode (0x00000003#32 ++ 0x000000#24 ++ 0x02#8) 3 = .ok (.update 3) := by decide
theorem test_decode_update_largest : decode 0x7FFFFFFF00000002 0 = .ok (.update 2147483647) := by decide
theorem test_decode_update_negative : decode 0x8000000000000002 0 = .ok (.update (-2147483648)) := by decide
theorem test_decode_finalize : decode (0x00000000#32 ++ 0x000000#24 ++ 0x03#8) 0 = .ok .finalize := by decide
theorem test_decode_rejects_by_name :
    decode 0x0000000000000001 2 = .error .payloadNotEmpty ∧ decode 0x0000000500000001 0 = .error .lenNotZero ∧
    decode 0x0000000000000101 0 = .error .reservedBits ∧ decode 0x0000000000000000 0 = .error .reservedOp ∧
    decode 0x0000000000000004 0 = .error .reservedOp ∧ decode 0x00000000000000FF 0 = .error .reservedOp ∧
    decode 0xFFFFFFFF00000102 0 = .error .reservedBits ∧ decode 0x0000000100000003 0 = .error .lenNotZero ∧
    decode 0x0000000000000003 1 = .error .payloadNotEmpty := by decide
/-- R80's examples. -/
theorem test_encode : encode (.update 3) = 0x0000000300000002 ∧ encode (.update (-1)) = 0xFFFFFFFF00000002 ∧
    encode .init = 0x0000000000000001 ∧ encode .finalize = 0x0000000000000003 := by decide
theorem test_table_words : decodeTableWord 64 0x0000000000000001 = some .init ∧
    decodeTableWord 32 0x00000002 = some (.update 0) ∧ decodeTableWord 64 0x0000000000000003 = some .finalize ∧
    decodeTableWord 64 0x0000000000000000 = none := by decide
/-- R26, R75. -/
theorem test_codes : Fsm.code .uninit = 0b00 ∧ Fsm.code .ready = 0b01 ∧ Fsm.code .accum = 0b10 ∧ Fsm.code .final = 0b11 ∧
    Status.code .ok = 0x00 ∧ Status.code .errIllegal = 0x01 ∧ Status.code .errArg = 0x02 ∧
    Status.code .errState = 0x03 := by decide

/-! ## The compressor (V10 to V21) -/

theorem test_rotl_V10 : rotl 0x80000000 1 = 0x00000001 ∧ rotl 0x12345678 1 = 0x2468ACF0 ∧
    rotl 0x67452301 5 = 0xE8A4602C ∧ rotl 0xEFCDAB89 30 = 0x7BF36AE2 := by decide
theorem test_round_functions_V11 :
    fCh 0xEFCDAB89 0x98BADCFE 0x10325476 = 0x98BADCFE ∧ fPar 0xEFCDAB89 0x98BADCFE 0x10325476 = 0x67452301 ∧
    fMaj 0xEFCDAB89 0x98BADCFE 0x10325476 = 0x98BADCFE ∧ fCh 0xF0F0F0F0 0xFF00FF00 0x0F0F0F0F = 0xFF0FFF0F ∧
    fPar 0xF0F0F0F0 0xFF00FF00 0x0F0F0F0F = 0x00FF00FF ∧ fMaj 0xF0F0F0F0 0xFF00FF00 0x0F0F0F0F = 0xFF00FF00 := by
  decide
theorem test_range_edges_V12 : roundK 0 = 0x5A827999 ∧ roundK 19 = 0x5A827999 ∧ roundK 20 = 0x6ED9EBA1 ∧
    roundK 39 = 0x6ED9EBA1 ∧ roundK 40 = 0x8F1BBCDC ∧ roundK 59 = 0x8F1BBCDC ∧ roundK 60 = 0xCA62C1D6 ∧
    roundK 79 = 0xCA62C1D6 := by decide
theorem test_block_load_V13 :
    loadWindow (window (patFrom 0 64)) =
      #v[0x00010203, 0x04050607, 0x08090A0B, 0x0C0D0E0F, 0x10111213, 0x14151617, 0x18191A1B, 0x1C1D1E1F,
         0x20212223, 0x24252627, 0x28292A2B, 0x2C2D2E2F, 0x30313233, 0x34353637, 0x38393A3B, 0x3C3D3E3F] := by
  decide +kernel
/-- Rows 0, 16, 19 and 79 of V14: s_t, and a..e after the round. -/
theorem test_trace_V14 :
    let at_ (t : Nat) : Word × List Word :=
      let x := runRounds (t + 1) (startWork hInit (window (pad abc)))
      (usedWord hInit (window (pad abc)) t, [x.a, x.b, x.c, x.d, x.e])
    at_ 0 = (0x61626380, [0x0116FC33, 0x67452301, 0x7BF36AE2, 0x98BADCFE, 0x10325476]) ∧
    at_ 16 = (0xC2C4C700, [0x4E925823, 0x20BDD62F, 0xC65AFB9D, 0x644A3DA5, 0x1181ED99]) ∧
    at_ 19 = (0x85898E01, [0xFD9E1D7D, 0xDC64901D, 0x20AA99CA, 0xD3A49608, 0xC82F758B]) ∧
    at_ 79 = (0x822E0879, [0x42541B35, 0x5738D5E1, 0x21834873, 0x681E6DF6, 0xD8FDF6AD]) := by decide +kernel
theorem test_compress_V21 :
    compressHash hInit (window (List.replicate 64 0x00)) =
      #v[0x92B404E5, 0x56588CED, 0x6C1ACD4E, 0xBF053F68, 0x09F73A93] ∧
    compressHash hInit (window (List.replicate 64 0xFF)) =
      #v[0xBAFBC2C8, 0x7C333226, 0x03F38E06, 0xC3E0F79C, 0x1F1B1475] := by decide +kernel

/-! ## INIT (V30) -/

theorem test_init_from_final :
    view (exec .init (stateAt .final abc)) =
      some ⟨[0x67452301, 0xEFCDAB89, 0x98BADCFE, 0x10325476, 0xC3D2E1F0], 0, 0, .ready, [], [⟨.ok, []⟩], 0⟩ := by
  decide +kernel

/-! ## UPDATE (P5's second UPDATE; V32) -/

theorem test_update_streams_P5 :
    view (exec (.update 130) (carrying (patFrom 10 130) (stateAt .accum (patFrom 0 10)))) =
      some ⟨[0xE02BACBE, 0x12F1F8E7, 0x02864DDC, 0xE8636B74, 0xAA460DE0], 0x00000000, 0x00000460, .accum,
        [0x80, 0x81, 0x82, 0x83, 0x84, 0x85, 0x86, 0x87, 0x88, 0x89, 0x8A, 0x8B], [⟨.ok, []⟩], 2⟩ := by
  decide +kernel
/-- V32, the carry and the wrap, on the two words. -/
theorem test_count_V32 :
    (addCountHi 0x00000000 0xFFFFFFF8 1, addCountLo 0xFFFFFFF8 1) = (0x00000001, 0x00000000) ∧
    (addCountHi 0x00000001 0xFFFFFFF8 2147483647, addCountLo 0xFFFFFFF8 2147483647) = (0x00000005, 0xFFFFFFF0) ∧
    (addCountHi 0xFFFFFFFF 0xFFFFFFF8 1, addCountLo 0xFFFFFFF8 1) = (0x00000000, 0x00000000) := by decide
/-- V33's error rows, the first of them two errors at once (R175). -/
theorem test_update_errors_V33 :
    answers (exec (.update (-1)) (stateAt .uninit [])) = some [⟨.errState, []⟩] ∧
    answers (exec (.update (-1)) (stateAt .ready [])) = some [⟨.errArg, []⟩] ∧
    answers (exec (.update 5) (carrying abc (stateAt .ready []))) = some [⟨.errArg, []⟩] ∧
    answers (exec (.update 1) (carrying abc (stateAt .final []))) = some [⟨.errState, []⟩] := by decide

/-! ## FINALIZE (V2, V43) -/

theorem test_finalize_abc_V2 :
    view (exec .finalize (stateAt .accum abc)) =
      some ⟨[0xA9993E36, 0x4706816A, 0xBA3E2571, 0x7850C26C, 0x9CD0D89D], 0x00000000, 0x00000200, .final, [],
        [⟨.ok, [0xa9, 0x99, 0x3e, 0x36, 0x47, 0x06, 0x81, 0x6a, 0xba, 0x3e, 0x25, 0x71, 0x78, 0x50, 0xc2, 0x6c, 0x9c, 0xd0,
          0xd8, 0x9d]⟩], 1⟩ := by decide +kernel
theorem test_finalize_two_compressions_V43 :
    view (exec .finalize (stateAt .accum (List.replicate 56 0x61))) =
      some ⟨[0xC2DB330F, 0x6083854C, 0x99D4B5BF, 0xB6E8F29F, 0x201BE699], 0x00000000, 0x00000400, .final, [],
        [⟨.ok, [0xc2, 0xdb, 0x33, 0x0f, 0x60, 0x83, 0x85, 0x4c, 0x99, 0xd4, 0xb5, 0xbf, 0xb6, 0xe8, 0xf2, 0x9f, 0x20, 0x1b,
          0xe6, 0x99]⟩], 2⟩ := by decide +kernel

/-! ## Steps: the opcode table's words as the first command after reset, an illegal header, reset, nothing -/

theorem test_first_word_after_reset :
    answers (step (State.reset.withFetchWord 64 0x0000000000000001)) = some [⟨.ok, []⟩] ∧
    answers (step (State.reset.withFetchWord 64 0x0000000000000002)) = some [⟨.errState, []⟩] ∧
    answers (step (State.reset.withFetchWord 64 0x0000000000000003)) = some [⟨.errState, []⟩] ∧
    answers (step (State.reset.withFetchWord 64 0x0000000000000007)) = some [⟨.errIllegal, []⟩] := by decide +kernel
/-- A reset event that abandons FINALIZE: UNINIT, and no response (R201). -/
theorem test_reset_event :
    (view (step { stateAt .accum abc with input := [.reset (some ⟨3, []⟩)] })).map (fun v => (v.fsm, v.responses)) =
      some (.uninit, []) := by decide +kernel

/-! ## The host's side (R80, R81; P1, P2, P4) -/

theorem test_read_lines :
    readLine ['I', 'N', 'I', 'T', ' ', ';', 'x'] = some .init ∧
    readLine ['U', 'P', 'D', 'A', 'T', 'E', ' ', '"', 'a', 'b', '"'] = some (.update none (.ascii [0x61, 0x62])) ∧
    readLine ['U', 'P', 'D', 'A', 'T', 'E', ' ', '1', ',', ' ', 'x', '"', '6', '3', '7', '8', '"'] =
      some (.update (some 1) (.hex [0x63, 0x78])) ∧
    readLine ['U', 'P', 'D', 'A', 'T', 'E', ' ', '-', '1', ',', ' ', 'e', 'm', 'p', 't', 'y'] =
      some (.update (some (-1)) .empty) ∧
    readLine ['U', 'P', 'D', 'A', 'T', 'E', ' ', 'r', 'e', 'p', '(', '6', '4', ',', ' ', '6', '1', ')'] =
      some (.update none (.rep 64 0x61)) ∧
    readLine ['C', 'O', 'M', 'P', 'U', 'T', 'E', ' ', 'p', 'a', 't', '(', '5', '5', ')'] =
      some (.compute none (.pat 55)) ∧
    readLine ['.', 'r', 'a', 'w', ' ', '0', 'x', '0', '0', '0', '0', '0', '0', '0', '0', '0', '0', '0', '0', '0', '0',
      '0', '7'] = some (.raw 0x0000000000000007 none) ∧
    readLine ['I', 'N', 'I', 'T', 'X'] = none := by decide
/-- P5's shape: a command, a line that holds only a comment, a command; and a line that is not of the grammar. -/
theorem test_read_program :
    readProgram [['I', 'N', 'I', 'T', ' ', ';', ' ', 'O', 'K'], [' ', ' ', ';', ' ', '0'], ['F', 'I', 'N', 'A', 'L', 'I', 'Z', 'E']] =
      some [.init, .finalize] ∧
    readProgram [['I', 'N', 'I', 'T'], ['H', 'A', 'L', 'T']] = none := by decide
/-- P4's first seven lines: each is run, whatever the response before it. -/
theorem test_run_program :
    answers (runProgram [.finalize, .update none (.ascii [0x78]), .raw 7 none, .init, .update (some (-1)) .empty,
        .update (some 5) (.ascii abc), .finalize] State.reset) =
      some [⟨.errState, []⟩, ⟨.errState, []⟩, ⟨.errIllegal, []⟩, ⟨.ok, []⟩, ⟨.errArg, []⟩, ⟨.errArg, []⟩,
        ⟨.ok, [0xda, 0x39, 0xa3, 0xee, 0x5e, 0x6b, 0x4b, 0x0d, 0x32, 0x55, 0xbf, 0xef, 0x95, 0x60, 0x18, 0x90, 0xaf, 0xd8, 0x07, 0x09]⟩] := by
  decide +kernel
/-- A failing COMPUTE stops before its own FINALIZE (R81); the next line runs (log 22). -/
theorem test_failing_compute_line :
    answers (runProgram [.compute (some 4) (.ascii abc), .init] State.reset) =
      some [⟨.ok, []⟩, ⟨.errArg, []⟩, ⟨.ok, []⟩] := by decide +kernel
theorem test_line_commands :
    Line.commands (.update none (.ascii abc)) = [⟨0x0000000300000002, [0x61, 0x62, 0x63]⟩] ∧
    Line.commands (.update (some (-1)) .empty) = [⟨0xFFFFFFFF00000002, []⟩] ∧
    Line.commands (.compute none (.pat 3)) =
      [⟨0x0000000000000001, []⟩, ⟨0x0000000300000002, [0x00, 0x01, 0x02]⟩, ⟨0x0000000000000003, []⟩] := by decide

/-! ## Witnesses: for each statement with hypotheses, states and operands that meet them all -/

theorem holds_empty : Holds (stateAt .ready []) [] := ⟨by decide, by decide +kernel, by decide +kernel⟩

theorem holds_abc : Holds (stateAt .accum abc) abc := ⟨by decide, by decide +kernel, by decide +kernel⟩

theorem open_ready : (stateAt .ready []).Open := .inl rfl

theorem open_accum (tail : List Byte) : (stateAt .accum tail).Open := .inr rfl

theorem safe_ready (hdr : BitVec 64) (p : List Byte) : Safe (offered hdr p (stateAt .ready [])) where
  aligned _ := by change (stateAt .ready []).count.toNat % 8 = 0; decide
  ready _ := ⟨holds_empty.count, holds_empty.hash, holds_empty.valid⟩
  accum h := by cases h
  final h := by cases h
  idle := rfl
  legal r hr := by cases hr

theorem safe_accum (hdr : BitVec 64) (p : List Byte) : Safe (offered hdr p (stateAt .accum abc)) where
  aligned _ := by change (stateAt .accum abc).count.toNat % 8 = 0; decide
  ready h := by cases h
  accum _ := ⟨abc, holds_abc.count, holds_abc.hash, holds_abc.valid⟩
  final h := by cases h
  idle := rfl
  legal r hr := by cases hr

theorem safe_final (hdr : BitVec 64) (p : List Byte) : Safe (offered hdr p (stateAt .final [])) where
  aligned _ := by change (stateAt .final []).count.toNat % 8 = 0; decide
  ready h := by cases h
  accum h := by cases h
  final _ := by change (stateAt .final []).count.toNat % 512 = 0; decide
  idle := rfl
  legal r hr := by cases hr

theorem safe_reset (es : List Input) : Safe (State.resetWith es) where
  aligned h := absurd rfl h
  ready h := by cases h
  accum h := by cases h
  final h := by cases h
  idle := rfl
  legal r hr := by cases hr

theorem witness_DecodeOfEncode :
    (Instr.update (-2147483648)).wf = true ∧ (Instr.update (-2147483648) = .init ∨ Instr.update (-2147483648) = .finalize → 5 = 0) ∧
    Instr.init.wf = true ∧ Instr.finalize.wf = true := by decide
theorem witness_EncodeOfDecode :
    decode 0x8000000000000002 7 = .ok (.update (-2147483648)) ∧ decode 1 0 = .ok .init ∧ decode 3 0 = .ok .finalize := by
  decide
theorem witness_DecoderAgreesWithOpcodeTable :
    ∀ r ∈ opcodeTable, r.admits r.value = true := by decide
/-- A witness for each of the four clauses, the last at the smallest reserved OP and at a payload on INIT. -/
theorem witness_ExecuteFollowsTheHeader :
    (offered 1 [] (stateAt .ready [])).input = .command ⟨1, []⟩ :: [] ∧
    (0x80000000_00000002 : BitVec 64).extractLsb' 0 32 = 0x00000002 ∧
    ¬((0 : BitVec 64).extractLsb' 0 32 = 0x00000002) ∧ ¬((4 : BitVec 64).extractLsb' 0 32 = 0x00000002) ∧
    ¬((1 : BitVec 64) = 0x0000000000000001 ∧ abc = []) := by decide +kernel
theorem witness_StepRunsDecodedCommand :
    (offered 0x0000000300000002 abc (stateAt .accum abc)).input = .command ⟨0x0000000300000002, abc⟩ :: [] ∧
    decode 0x0000000300000002 abc.length = .ok (.update 3) := by decide +kernel
/-- The three grounds at their edges, and a state where the answer is ERR_ILLEGAL. -/
theorem witness_IllegalCommandAnswersErrIllegal :
    (0x0000000080000001 : BitVec 64).extractLsb' 8 24 ≠ 0 ∧ 0x04 ≤ ((0xFF : BitVec 64).extractLsb' 0 8).toNat ∧
    0x04 ≤ ((0x04 : BitVec 64).extractLsb' 0 8).toNat ∧ (0x0000000100000003 : BitVec 64).extractLsb' 32 32 ≠ 0 ∧
    answers (step (offered 4 [] (stateAt .accum abc))) = some ((stateAt .accum abc).responses ++ [⟨.errIllegal, []⟩]) := by
  decide +kernel
theorem witness_RotlMovesBits : 1 ≤ 1 ∧ 31 ≤ 31 ∧ (rotl 0x80000001 31).getLsbD 31 = true := by decide
theorem witness_RoundFunctionsBitByBit : 0 < 80 ∧ 19 < 20 ∧ (40 ≤ 59 ∧ 59 < 60) ∧ 79 < 80 := by decide
theorem witness_BlockWordsAreBigEndian : 0 < 16 ∧ 15 < 16 := by decide
theorem witness_RollingWindowIsThe80WordSchedule : 15 < 16 ∧ 16 ≤ 16 ∧ 79 < 80 := by decide
theorem witness_UpdateAbsorbsPayload :
    (carrying abc (stateAt .accum abc)).Open ∧ 3 ≤ (carrying abc (stateAt .accum abc)).payload.length :=
  ⟨open_accum abc, by decide⟩
/-- Both clauses, at j + len = 63 and at j + len = 64. -/
theorem witness_UpdateWritesBufAtTheFill :
    (carrying (patFrom 0 61) (stateAt .accum abc)).Open ∧
    61 ≤ (carrying (patFrom 0 61) (stateAt .accum abc)).payload.length ∧
    (carrying (patFrom 0 61) (stateAt .accum abc)).fill + 60 = 63 ∧
    (carrying (patFrom 0 61) (stateAt .accum abc)).fill + 61 = 64 :=
  ⟨open_accum abc, by decide, by decide, by decide⟩
theorem witness_UpdateOfNothingChangesOnlyFsm : (stateAt .ready []).Open := open_ready
/-- With len shorter than the payload, so that there are bytes to ignore, and with len the whole of it. -/
theorem witness_BytesBeyondLenAreIgnored : 2 ≤ abc.length ∧ 2 ≠ abc.length ∧ 3 ≤ abc.length := by decide
theorem witness_CountCarriesFromLowToHigh :
    (carrying abc { stateAt .accum [] with countLo := 0xFFFFFFF8 }).Open ∧
    3 ≤ (carrying abc { stateAt .accum [] with countLo := 0xFFFFFFF8 }).payload.length := ⟨.inr rfl, by decide⟩
theorem witness_CountNeverDecreasesInAMessage :
    (∃ t, exec (.update 3) (carrying abc (stateAt .accum abc)) = .next t ∧ t.responses = [] ++ [⟨.ok, []⟩]) ∧
    (carrying abc (stateAt .accum abc)).count.toNat + 8 * (3 : Int).toNat < 2 ^ 64 :=
  ⟨next_of_answers (by decide +kernel), by decide⟩
theorem witness_BadLengthAnswersErrArg :
    (carrying abc (stateAt .ready [])).Open ∧ ((-1 : Int) < 0) ∧
    ((carrying abc (stateAt .ready [])).payload.length : Int) < 4 := ⟨.inl rfl, by decide, by decide⟩
theorem witness_FinalizeLeavesTheDigest : (stateAt .accum abc).Open ∧ (stateAt .accum abc).count.toNat % 8 = 0 :=
  ⟨open_accum abc, by decide⟩
/-- Both cases, at r = 55 and r = 56. -/
theorem witness_FinalizeCompressesOnceOrTwice :
    (stateAt .accum (patFrom 0 55)).Open ∧ (stateAt .accum (patFrom 0 55)).count.toNat % 8 = 0 ∧
    (stateAt .accum (patFrom 0 55)).fill = 55 ∧ (stateAt .accum (patFrom 0 56)).fill = 56 :=
  ⟨open_accum _, by decide, by decide, by decide⟩
theorem witness_FinalizeAnswersTheClosedForm : (stateAt .accum abc).Open ∧ Holds (stateAt .accum abc) abc :=
  ⟨open_accum abc, holds_abc⟩
theorem witness_FinalizeFaultsOnlyWherePaddingNeverEnds :
    ({ stateAt .accum [] with countLo := 1 } : State).Open ∧
    ({ stateAt .accum [] with countLo := 1 } : State).count.toNat % 8 ≠ 0 := ⟨.inr rfl, by decide⟩
theorem witness_LengthFieldIsBigEndian : 0 < 8 ∧ 7 < 8 := by decide
theorem witness_DigestIsBigEndian : 0 < 5 ∧ 4 < 5 ∧ 3 < 4 := by decide
theorem witness_WrongStateAnswersErrState :
    State.reset.fsm = .uninit ∧ (stateAt .final []).fsm = .final := by decide
/-- In UNINIT, READY, ACCUM and FINAL, with a legal UPDATE, FINALIZE and a reserved command. -/
theorem witness_FsmFollowsTheTable :
    (Safe (State.resetWith [.command ⟨3, []⟩]) ∧
      (State.resetWith [.command ⟨3, []⟩]).input = .command ⟨3, []⟩ :: []) ∧
    (Safe (offered 0x0000000300000002 abc (stateAt .ready [])) ∧
      (offered 0x0000000300000002 abc (stateAt .ready [])).input = .command ⟨0x0000000300000002, abc⟩ :: []) ∧
    (Safe (offered 3 [] (stateAt .accum abc)) ∧ (offered 3 [] (stateAt .accum abc)).input = .command ⟨3, []⟩ :: []) ∧
    (Safe (offered 7 [] (stateAt .final [])) ∧ (offered 7 [] (stateAt .final [])).input = .command ⟨7, []⟩ :: []) :=
  ⟨⟨safe_reset _, rfl⟩, ⟨safe_ready _ _, rfl⟩, ⟨safe_accum _ _, rfl⟩, ⟨safe_final _ _, rfl⟩⟩
theorem witness_ErrorsHaveThePriority :
    Safe (offered 0xFFFFFFFF00000002 [] (stateAt .final [])) ∧
    (offered 0xFFFFFFFF00000002 [] (stateAt .final [])).input = .command ⟨0xFFFFFFFF00000002, []⟩ :: [] :=
  ⟨safe_final _ _, rfl⟩
theorem witness_OneResponsePerCommand :
    Safe (offered 3 [] (stateAt .accum abc)) ∧ (offered 3 [] (stateAt .accum abc)).input = .command ⟨3, []⟩ :: [] ∧
    Command.decode ⟨3, []⟩ = .ok .finalize := ⟨safe_accum _ _, rfl, by decide⟩
theorem witness_WorkPerCommand :
    Safe (offered 0x0000003D00000002 (patFrom 0 61) (stateAt .accum abc)) ∧
    (offered 0x0000003D00000002 (patFrom 0 61) (stateAt .accum abc)).input =
      .command ⟨0x0000003D00000002, patFrom 0 61⟩ :: [] := ⟨safe_accum _ _, rfl⟩
theorem witness_ErrorChangesNoState :
    (offered 3 [] (stateAt .final abc)).input = .command ⟨3, []⟩ :: [] ∧
    (∃ t, step (offered 3 [] (stateAt .final abc)) = .next t ∧ t.responses = [] ++ [⟨.errState, []⟩]) ∧
    Status.errState ≠ .ok := ⟨rfl, next_of_answers (by decide +kernel), by decide⟩
theorem witness_NothingWorksBeforeInit :
    State.reset.fsm = .uninit ∧
    ∀ c ∈ ([⟨3, []⟩, ⟨0x0000000100000002, [0x78]⟩, ⟨7, []⟩] : List Command), c.decode ≠ .ok .init := by decide
theorem witness_ResetAbandonsTheCommand :
    ({ stateAt .accum abc with input := [.reset (some ⟨3, []⟩), .command ⟨1, []⟩] } : State).input =
      .reset (some ⟨3, []⟩) :: [.command ⟨1, []⟩] := rfl
theorem witness_IdleCoreHoldsItsState : (stateAt .accum abc).input = [] := rfl
theorem witness_CommandsAreTakenInOrder :
    (offered 1 [] (stateAt .accum abc)).input = .command ⟨1, []⟩ :: [] ∧
    ∃ t, step (offered 1 [] (stateAt .accum abc)) = .next t ∧ t.responses = [⟨.ok, []⟩] :=
  ⟨rfl, next_of_answers (by decide +kernel)⟩
theorem witness_StepKeepsSafe :
    Safe (offered 3 [] (stateAt .accum abc)) ∧ ∃ t, step (offered 3 [] (stateAt .accum abc)) = .next t := by
  refine ⟨safe_accum _ _, ?_⟩
  obtain ⟨t, ht, -⟩ := next_of_answers (o := step (offered 3 [] (stateAt .accum abc)))
    (rs := [⟨.ok, [0xa9, 0x99, 0x3e, 0x36, 0x47, 0x06, 0x81, 0x6a, 0xba, 0x3e, 0x25, 0x71, 0x78, 0x50, 0xc2, 0x6c, 0x9c, 0xd0,
      0xd8, 0x9d]⟩]) (by decide +kernel)
  exact ⟨t, ht⟩
/-- In each FSM state. -/
theorem witness_SafeStatesStepToSafeStates :
    Safe (State.resetWith [.command ⟨3, []⟩]) ∧ Safe (offered 3 [] (stateAt .ready [])) ∧
    Safe (offered 3 [] (stateAt .accum abc)) ∧ Safe (offered 3 [] (stateAt .final [])) :=
  ⟨safe_reset _, safe_ready _ _, safe_accum _ _, safe_final _ _⟩
theorem witness_HashChangesOnlyByWholeCompressions :
    (offered 0x0000003D00000002 (patFrom 0 61) (stateAt .accum abc)).input =
      .command ⟨0x0000003D00000002, patFrom 0 61⟩ :: [] ∧
    Command.decode ⟨0x0000003D00000002, patFrom 0 61⟩ ≠ .ok .init ∧ Command.decode ⟨1, []⟩ = .ok .init ∧
    ∃ t, step (offered 0x0000003D00000002 (patFrom 0 61) (stateAt .accum abc)) = .next t ∧ t.responses = [⟨.ok, []⟩] :=
  ⟨rfl, by decide, by decide, next_of_answers (by decide +kernel)⟩
theorem witness_ContextHoldsTheMessage :
    (carrying abc (stateAt .accum abc)).Open ∧ Holds (carrying abc (stateAt .accum abc)) abc ∧
    3 ≤ (carrying abc (stateAt .accum abc)).payload.length :=
  ⟨open_accum abc, ⟨holds_abc.count, holds_abc.hash, holds_abc.valid⟩, by decide⟩
theorem witness_ChunkingIsInvisible :
    (stateAt .ready []).Open ∧ [[0x61, 0x62], [0x63]].flatten = [abc].flatten ∧
    (∀ d ∈ [[0x61, 0x62], [(0x63 : Byte)]], d.length < 2 ^ 31) ∧ (∀ d ∈ [abc], d.length < 2 ^ 31) :=
  ⟨open_ready, by decide, by decide, by decide⟩
theorem witness_MessageSequenceGivesTheDigest : ∀ d ∈ [[0x61, 0x62], [], [(0x63 : Byte)]], d.length < 2 ^ 31 := by decide
/-- Both clauses, at len = n and at len = n + 1 and −1. -/
theorem witness_ComputeGivesTheDigestOrErrArg :
    (lenFits 3 = true ∧ (0 : Int) ≤ 3 ∧ (3 : Int) ≤ (abc.length : Int)) ∧ (lenFits 4 = true ∧ (abc.length : Int) < 4) ∧
    (lenFits (-1) = true ∧ (-1 : Int) < 0) := by decide
/-- The two states differ in stale bytes, working registers and draws. -/
theorem witness_UnspecifiedStateNeverReachesAResponse :
    let s := offered 3 [] (stateAt .accum abc)
    let t := { s with buf := s.buf.set 3 0xEE, work := { s.work with a := 1 }, draws := 9 }
    LooksSame s t ∧ s ≠ t ∧ ∃ s', step s = .next s' := by
  refine ⟨⟨rfl, rfl, rfl, rfl, fun _ => rfl, fun _ => rfl, fun _ => by decide +kernel⟩, by decide +kernel,
    witness_StepKeepsSafe.2⟩

end Sys2Proof.Tests
end

section
/-! SUPPORT. What executing one accepted command can do, said once: it is rejected, it loads the initial Context, it absorbs, or it
finalizes. The statements of 10_state.md below are case analyses on it. -/

namespace Sys2Proof.Machine

/-! ## INIT -/

/-- `t` is `s` after INIT (R130). -/
structure Loaded (s t : State) : Prop where
  hash : t.h = hInit
  countHi : t.countHi = 0
  countLo : t.countLo = 0
  fsm : t.fsm = .ready
  answered : t.responses = s.responses ++ [⟨.ok, []⟩]
  flight : t.inFlight = none
  input : t.input = s.input
  compressions : t.compressions = s.compressions

/-- INIT is accepted in every FSM state (R130). -/
theorem exec_init_loaded (s : State) : ∃ t, exec .init s = .next t ∧ Loaded s t :=
  ⟨_, rfl, by constructor <;> simp⟩

theorem Loaded.count {s t : State} (h : Loaded s t) : t.count = 0 := by
  rw [State.count, h.countHi, h.countLo]; rfl

theorem Loaded.fill {s t : State} (h : Loaded s t) : t.fill = 0 := by
  rw [fill_eq, h.count]; rfl

theorem Loaded.validBytes {s t : State} (h : Loaded s t) : t.validBytes = [] :=
  List.eq_nil_of_length_eq_zero (by rw [validBytes_length, h.fill])

/-! ## UPDATE and FINALIZE -/

/-- Outside READY and ACCUM, UPDATE and FINALIZE answer ERR_STATE (R173). -/
theorem exec_of_not_open {i : Instr} {s : State} (hi : i ≠ .init) (hc : ¬ s.Open) :
    exec i s = .next (raise .errState s) := by
  cases i with
  | init => exact absurd rfl hi
  | update len =>
    obtain ⟨-, he⟩ | ⟨ho, -⟩ | ⟨l, -, ho, -⟩ := execUpdate_cases len s
    · exact he
    · exact absurd ho hc
    · exact absurd ho hc
  | finalize =>
    obtain ⟨-, he⟩ | ⟨ho, -⟩ | ⟨ho, -⟩ := execFinalize_cases s
    · exact he
    · exact absurd ho hc
    · exact absurd ho hc

/-- In READY and ACCUM, UPDATE with a bad length answers ERR_ARG (R172). -/
theorem exec_update_of_bad_length {len : Int} {s : State} (ho : s.Open)
    (hl : len < 0 ∨ (s.payload.length : Int) < len) : exec (.update len) s = .next (raise .errArg s) := by
  obtain ⟨hc, -⟩ | ⟨-, -, he⟩ | ⟨l, rfl, -, hl', -⟩ := execUpdate_cases len s
  · exact absurd ho hc
  · exact he
  · omega

/-- In READY and ACCUM, UPDATE with a legal length absorbs its bytes (R132). -/
theorem exec_update_of_legal {l : Nat} {s : State} (ho : s.Open) (hl : l ≤ s.payload.length) :
    ∃ u, exec (.update l) s = .next (respond .ok [] u) ∧ Updated (s.payload.take l) s u := by
  obtain ⟨hc, -⟩ | ⟨-, hbad, -⟩ | ⟨l', hl', -, -, he⟩ := execUpdate_cases l s
  · exact absurd ho hc
  · omega
  · obtain rfl : l = l' := by omega
    exact ⟨_, he, updateContext_updated l s⟩

/-- In READY and ACCUM, FINALIZE of a COUNT that is a multiple of 8 feeds the padding (R150). -/
theorem exec_finalize_of_aligned {s : State} (ho : s.Open) (h8 : s.count.toNat % 8 = 0) :
    ∃ p, exec .finalize s = .next (finish p) ∧ Fed (padding s.fill s.count) s p := by
  obtain ⟨hc, -⟩ | ⟨-, -, p, hp, he⟩ | ⟨-, hn, -⟩ := execFinalize_cases s
  · exact absurd ho hc
  · exact ⟨p, he, hp⟩
  · exact absurd h8 hn

/-- In READY and ACCUM, FINALIZE of any other COUNT stops (log 9). -/
theorem exec_finalize_of_not_aligned {s : State} (ho : s.Open) (h8 : s.count.toNat % 8 ≠ 0) :
    exec .finalize s = .fault .paddingNeverEnds := by
  obtain ⟨hc, -⟩ | ⟨-, hn, -⟩ | ⟨-, -, he⟩ := execFinalize_cases s
  · exact absurd ho hc
  · exact absurd hn h8
  · exact he

/-- An UPDATE is an absorb, but for FSM (R132). -/
theorem Updated.fed {d : List Byte} {s t : State} (h : Updated d s t) : Fed d s (t.setFsm s.fsm) :=
  ⟨h.hash, h.valid, h.count, h.compressions, rfl, h.inFlight, h.input, h.responses, h.draws⟩

theorem Updated.holds {d m : List Byte} {s t : State} (h : Updated d s t) (hm : Holds s m) : Holds t (m ++ d) :=
  have hf := h.fed.holds hm
  ⟨hf.count, hf.hash, hf.valid⟩

/-- After the padding COUNT is a multiple of 512 (R153). -/
theorem Fed.count_mod_512_of_padding {s p : State} (h : Fed (padding s.fill s.count) s p)
    (h8 : s.count.toNat % 8 = 0) : p.count.toNat % 512 = 0 := by
  rw [h.count, padding_length, padCount, zeroCount, fill_eq, BitVec.toNat_add, BitVec.toNat_ofNat]
  omega

/-! ## One accepted command -/

/-- Why the command `c`, accepted in `s`, ends in the error `e` (R171 to R173). -/
inductive Rejected (c : Command) (s : State) : Status → Prop where
  | illegal {x : Illegal} (hd : c.decode = .error x) : Rejected c s .errIllegal
  | wrongState {i : Instr} (hd : c.decode = .ok i) (hi : i ≠ .init) (hc : ¬ s.Open) : Rejected c s .errState
  | badLength {len : Int} (hd : c.decode = .ok (.update len)) (ho : s.Open)
      (hl : len < 0 ∨ (s.payload.length : Int) < len) : Rejected c s .errArg

/-- INIT is never rejected (R130). -/
theorem Rejected.decode_ne_init {c : Command} {s : State} {e : Status} (why : Rejected c s e) :
    c.decode ≠ .ok .init := by
  intro h
  cases why with
  | illegal hd => simp [h] at hd
  | wrongState hd hi hc =>
    rw [h] at hd
    cases hd
    exact hi rfl
  | badLength hd ho hl => simp [h] at hd

/-- What the command `c`, accepted in `s`, can leave. -/
inductive Executed (c : Command) (s : State) : State → Prop where
  | rejected {e : Status} (why : Rejected c s e) : Executed c s (raise e s)
  | loaded {t : State} (hd : c.decode = .ok .init) (ht : Loaded s t) : Executed c s t
  | updated {l : Nat} {u : State} (hd : c.decode = .ok (.update l)) (ho : s.Open) (hl : l ≤ s.payload.length)
      (hu : Updated (s.payload.take l) s u) : Executed c s (respond .ok [] u)
  | finalized {p : State} (hd : c.decode = .ok .finalize) (ho : s.Open) (h8 : s.count.toNat % 8 = 0)
      (hp : Fed (padding s.fill s.count) s p) : Executed c s (finish p)

theorem execute_of_decode_ok {c : Command} {i : Instr} (hd : c.decode = .ok i) (s : State) :
    execute c s = exec i s := by
  simp only [execute, hd]

theorem execute_of_rejected {c : Command} {s : State} {e : Status} (why : Rejected c s e) :
    execute c s = .next (raise e s) := by
  cases why with
  | illegal hd => simp only [execute, hd]
  | wrongState hd hi hc => rw [execute_of_decode_ok hd, exec_of_not_open hi hc]
  | badLength hd ho hl => rw [execute_of_decode_ok hd, exec_update_of_bad_length ho hl]

/-- A command completes as `Executed` says, or it is a FINALIZE whose padding never ends (log 9). -/
theorem execute_cases (c : Command) (s : State) :
    (∃ t, execute c s = .next t ∧ Executed c s t) ∨
    (s.Open ∧ s.count.toNat % 8 ≠ 0 ∧ execute c s = .fault .paddingNeverEnds) := by
  have reject {e : Status} (why : Rejected c s e) : ∃ t, execute c s = .next t ∧ Executed c s t :=
    ⟨_, execute_of_rejected why, .rejected why⟩
  cases hd : c.decode with
  | error x => exact .inl (reject (.illegal hd))
  | ok i =>
    rw [execute_of_decode_ok hd] at reject ⊢
    cases i with
    | init =>
      obtain ⟨t, he, ht⟩ := exec_init_loaded s
      exact .inl ⟨t, he, .loaded hd ht⟩
    | update len =>
      by_cases ho : s.Open
      · by_cases hl : len < 0 ∨ (s.payload.length : Int) < len
        · exact .inl (reject (.badLength hd ho hl))
        · obtain ⟨l, rfl⟩ := Int.eq_ofNat_of_zero_le (by omega : 0 ≤ len)
          obtain ⟨u, he, hu⟩ := exec_update_of_legal ho (by omega : l ≤ s.payload.length)
          exact .inl ⟨_, he, .updated hd ho (by omega) hu⟩
      · exact .inl (reject (.wrongState hd nofun ho))
    | finalize =>
      by_cases ho : s.Open
      · by_cases h8 : s.count.toNat % 8 = 0
        · obtain ⟨p, he, hp⟩ := exec_finalize_of_aligned ho h8
          exact .inl ⟨_, he, .finalized hd ho h8 hp⟩
        · exact .inr ⟨ho, h8, exec_finalize_of_not_aligned ho h8⟩
      · exact .inl (reject (.wrongState hd nofun ho))

theorem executed_of_execute {c : Command} {s t : State} (h : execute c s = .next t) : Executed c s t := by
  obtain ⟨t', he, ht⟩ | ⟨-, -, he⟩ := execute_cases c s
  · rw [h] at he
    cases he
    exact ht
  · rw [h] at he
    cases he

/-- A step on a command, from any state. -/
theorem executed_of_step {c : Command} {rest : List Input} {s t : State} (hin : s.input = .command c :: rest)
    (h : step s = .next t) : Executed c (accept c rest s) t :=
  executed_of_execute (step_command hin ▸ h)

end Sys2Proof.Machine
end

section
/-! SUPPORT. How the invariant Safe comes to hold in each FSM state, and that a step on a command keeps it (R22, R135, R153, R74). -/

namespace Sys2Proof.Machine

/-! ## The invariant -/

theorem Holds.aligned {s : State} {m : List Byte} (h : Holds s m) : s.count.toNat % 8 = 0 := by
  rw [h.count, bitLength, BitVec.toNat_ofNat]; omega

/-- After INIT the Context is that of the empty message (R130, R135). -/
theorem Loaded.holds {s t : State} (h : Loaded s t) : Holds t [] :=
  ⟨h.count, h.hash, h.validBytes⟩

theorem holds_congr {s t : State} {m : List Byte} (hc : SameContext s t) (h : Holds s m) : Holds t m where
  count := (count_congr hc.countHi hc.countLo).trans h.count
  hash := hc.hash.trans h.hash
  valid := (validBytes_congr (count_congr hc.countHi hc.countLo) hc.buf).trans h.valid

/-- Accepting a command changes nothing of the Context (R204). -/
theorem accept_sameContext (c : Command) (rest : List Input) (s : State) : SameContext s (accept c rest s) :=
  ⟨rfl, rfl, rfl, rfl, rfl⟩

/-- An error leaves the Context that stood before the command was accepted (R174). -/
theorem raise_accept_sameContext (e : Status) (c : Command) (rest : List Input) (s : State) :
    SameContext s (raise e (accept c rest s)) :=
  ⟨rfl, rfl, rfl, rfl, rfl⟩

end Sys2Proof.Machine

namespace Sys2Proof

open Machine

/-! ## The invariant, by FSM state -/

/-- In READY and ACCUM the Context is that of some message (R135). -/
theorem Safe.message {s : State} (h : Safe s) (ho : s.Open) : ∃ m, Holds s m := by
  obtain hr | ha := ho
  · exact ⟨[], h.ready hr⟩
  · exact h.accum ha

theorem Safe.aligned_of_open {s : State} (h : Safe s) (ho : s.Open) : s.count.toNat % 8 = 0 := by
  obtain ⟨m, hm⟩ := h.message ho
  exact hm.aligned

section
variable {t : State} (hidle : t.inFlight = none) (hlegal : ∀ r ∈ t.responses, r.Legal)
include hidle hlegal

theorem safe_of_uninit (hf : t.fsm = .uninit) : Safe t where
  aligned h := absurd hf h
  ready h := nomatch hf.symm.trans h
  accum h := nomatch hf.symm.trans h
  final h := nomatch hf.symm.trans h
  idle := hidle
  legal := hlegal

theorem safe_of_ready (hf : t.fsm = .ready) (hm : Holds t []) : Safe t where
  aligned _ := hm.aligned
  ready _ := hm
  accum h := nomatch hf.symm.trans h
  final h := nomatch hf.symm.trans h
  idle := hidle
  legal := hlegal

theorem safe_of_accum {m : List Byte} (hf : t.fsm = .accum) (hm : Holds t m) : Safe t where
  aligned _ := hm.aligned
  ready h := nomatch hf.symm.trans h
  accum _ := ⟨m, hm⟩
  final h := nomatch hf.symm.trans h
  idle := hidle
  legal := hlegal

theorem safe_of_final (hf : t.fsm = .final) (hc : t.count.toNat % 512 = 0) : Safe t where
  aligned _ := by omega
  ready h := nomatch hf.symm.trans h
  accum h := nomatch hf.symm.trans h
  final _ := hc
  idle := hidle
  legal := hlegal

/-- The invariant speaks of the Context, the command in flight and the responses alone. -/
theorem Safe.of_sameContext {s : State} (h : Safe s) (hc : SameContext s t) : Safe t where
  aligned hf := by rw [count_congr hc.countHi hc.countLo]; exact h.aligned (hc.fsm ▸ hf)
  ready hf := holds_congr hc (h.ready (hc.fsm ▸ hf))
  accum hf := (h.accum (hc.fsm ▸ hf)).imp fun _ hm => holds_congr hc hm
  final hf := by rw [count_congr hc.countHi hc.countLo]; exact h.final (hc.fsm ▸ hf)
  idle := hidle
  legal := hlegal

end

/-! ## A step keeps it -/

/-- One more legal response leaves all responses legal (R74). -/
theorem legal_append {rs : List Response} {r : Response} (hrs : ∀ x ∈ rs, x.Legal) (hr : r.Legal) :
    ∀ x ∈ rs ++ [r], x.Legal := by
  intro x hx
  obtain hx | hx := List.mem_append.mp hx
  · exact hrs x hx
  · exact List.mem_singleton.mp hx ▸ hr

/-- The digest of an OK FINALIZE is a legal one (R74). -/
theorem digest_legal (p : State) : Response.Legal ⟨.ok, p.digest⟩ := .inr ⟨rfl, serialize_length p.h⟩

/-- Whatever a command does from a safe state, it leaves a safe state. -/
theorem Safe.executed {c : Command} {rest : List Input} {s t : State} (h : Safe s)
    (ht : Executed c (accept c rest s) t) : Safe t := by
  cases ht with
  | rejected why =>
    exact h.of_sameContext rfl (legal_append h.legal (.inl rfl)) (raise_accept_sameContext _ c rest s)
  | loaded hd hl =>
    exact safe_of_ready hl.flight (hl.answered ▸ legal_append h.legal (.inl rfl)) hl.fsm hl.holds
  | @updated l u hd ho hl hu =>
    obtain ⟨m, hm⟩ := h.message ho
    have hm' : Holds u (m ++ _) := hu.holds (holds_congr (accept_sameContext c rest s) hm)
    have hlegal : ∀ r ∈ u.responses ++ [⟨.ok, []⟩], r.Legal := legal_append (hu.responses ▸ h.legal) (.inl rfl)
    exact safe_of_accum rfl hlegal hu.fsm ⟨hm'.count, hm'.hash, hm'.valid⟩
  | @finalized p hd ho h8 hp =>
    have hlegal : ∀ r ∈ (finish p).responses, r.Legal := by
      rw [finish_responses, hp.responses]
      exact legal_append h.legal (digest_legal p)
    have hcount : (finish p).count = p.count := count_congr (finish_countHi p) (finish_countLo p)
    exact safe_of_final (finish_inFlight p) hlegal (finish_fsm p) (by
      rw [hcount]; exact hp.count_mod_512_of_padding h8)

/-- From a safe state a step on a command answers (R207). -/
theorem Safe.step_executed {c : Command} {rest : List Input} {s : State} (h : Safe s)
    (hin : s.input = .command c :: rest) : ∃ t, step s = .next t ∧ Executed c (accept c rest s) t := by
  rw [step_command hin]
  obtain ht | ⟨ho, h8, -⟩ := execute_cases c (accept c rest s)
  · exact ht
  · exact absurd (h.aligned_of_open ho) h8

/-- A reset event leaves a safe state (R200). -/
theorem Safe.resetEvent {s : State} (h : Safe s) (rest : List Input) : Safe (resetEvent rest s) :=
  safe_of_uninit rfl h.legal rfl

end Sys2Proof
end

section
/-! SUPPORT. What a command does to COUNT (R39), to H (R38) and to FSM (R27). -/

namespace Sys2Proof.Machine

/-! ## COUNT and H -/

/-- An error response is not OK (R74). -/
theorem raise_responses_ne_ok {e : Status} (he : e ≠ .ok) (s : State) :
    (raise e s).responses ≠ s.responses ++ [⟨.ok, []⟩] := by
  simpa using he

/-- Below 2^64 bits UPDATE adds to COUNT with no wrap (R39, R133). -/
theorem Updated.count_toNat_of_lt {l : Nat} {s u : State} (h : Updated (s.payload.take l) s u)
    (hl : l ≤ s.payload.length) (hlt : s.count.toNat + 8 * l < 2 ^ 64) : u.count.toNat = s.count.toNat + 8 * l := by
  rw [h.count, List.length_take_of_le hl, BitVec.toNat_add, BitVec.toNat_ofNat]
  omega

/-- `compress*` is a fold over as many blocks as the bytes hold whole (R135). -/
theorem compressStar_is_fold (h : Hash) (d : List Byte) :
    ∃ bs : List Block, compressStar h d = bs.foldl compressHash h ∧ bs.length = d.length / 64 :=
  ⟨blocks (d.length / 64) d, rfl, blocks_length _ d⟩

/-- An absorb changes H by as many whole compressions as it counts (R38, R131). -/
theorem Fed.hash_is_fold {d : List Byte} {s t : State} (h : Fed d s t) :
    ∃ bs : List Block, t.h = bs.foldl compressHash s.h ∧ t.compressions = s.compressions + bs.length := by
  obtain ⟨bs, hbs, hlen⟩ := compressStar_is_fold s.h (s.validBytes ++ d)
  exact ⟨bs, h.hash.trans hbs, by rw [h.compressions, hlen, List.length_append, validBytes_length]⟩

/-! ## The FSM table -/

theorem fsmTable_init (f : Fsm) (n : Nat) : fsmTable f .init n = (.ready, .ok) := by
  cases f <;> rfl

theorem fsmTable_update_of_open {s : State} (ho : s.Open) {l n : Nat} (hl : l ≤ n) :
    fsmTable s.fsm (.update l) n = (.accum, .ok) := by
  have hlegal : (0 : Int) ≤ l ∧ (l : Int) ≤ n := by omega
  obtain hf | hf := ho <;> rw [hf] <;> exact if_pos hlegal

theorem fsmTable_finalize_of_open {s : State} (ho : s.Open) (n : Nat) :
    fsmTable s.fsm .finalize n = (.final, .ok) := by
  obtain hf | hf := ho <;> rw [hf] <;> rfl

/-- The cells of a rejected command keep FSM and answer its error (R27). -/
theorem Rejected.fsmTable_eq {c : Command} {s : State} {e : Status} {i : Instr} (why : Rejected c s e)
    (hd : c.decode = .ok i) : fsmTable s.fsm i s.payload.length = (s.fsm, e) := by
  cases why with
  | illegal hx => simp [hd] at hx
  | @wrongState i' hd' hi hc =>
    cases hd.symm.trans hd'
    cases i with
    | init => exact absurd rfl hi
    | update len => obtain hf | hf := (not_open_iff s).mp hc <;> rw [hf] <;> rfl
    | finalize => obtain hf | hf := (not_open_iff s).mp hc <;> rw [hf] <;> rfl
  | @badLength len hd' ho hl =>
    cases hd.symm.trans hd'
    have hbad : ¬ (0 ≤ len ∧ len ≤ (s.payload.length : Int)) := by omega
    obtain hf | hf := ho <;> rw [hf] <;> exact if_neg hbad

theorem Rejected.ne_ok {c : Command} {s : State} {e : Status} (why : Rejected c s e) : e ≠ .ok := by
  cases why <;> decide

theorem Rejected.errIllegal_of_error {c : Command} {s : State} {e : Status} {x : Illegal} (why : Rejected c s e)
    (hx : c.decode = .error x) : e = .errIllegal := by
  cases why with
  | illegal hd => rfl
  | wrongState hd hi hc => simp [hx] at hd
  | badLength hd ho hl => simp [hx] at hd

end Sys2Proof.Machine
end

section
/-! SUPPORT. What the spec leaves unspecified reaches no response (R25, R32, R41): every operation that a step is made of keeps `LooksSame`. -/

namespace Sys2Proof

open Machine

/-! ## The operations keep it -/

theorem LooksSame.open_iff {s t : State} (h : LooksSame s t) : s.Open ↔ t.Open := by
  simp only [State.Open, h.fsm]

theorem LooksSame.payload {s t : State} (h : LooksSame s t) : s.payload = t.payload := by
  simp only [State.payload, h.flight]

theorem LooksSame.accept {s t : State} (h : LooksSame s t) (c : Command) (rest : List Input) :
    LooksSame (accept c rest s) (accept c rest t) :=
  ⟨h.fsm, rfl, rfl, h.responses, h.hash, h.count, h.valid⟩

theorem LooksSame.respond {s t : State} (h : LooksSame s t) (st : Status) (dg : List Byte) :
    LooksSame (respond st dg s) (respond st dg t) :=
  ⟨h.fsm, rfl, h.input, by rw [respond_responses, respond_responses, h.responses], h.hash, h.count, h.valid⟩

/-- Outside READY and ACCUM the Context is not looked at (R40, R153). -/
theorem looksSame_of_not_open {s t : State} (hc : ¬ s.Open) (hfsm : s.fsm = t.fsm) (hflight : s.inFlight = t.inFlight)
    (hinput : s.input = t.input) (hresponses : s.responses = t.responses) : LooksSame s t :=
  ⟨hfsm, hflight, hinput, hresponses, fun ho => absurd ho hc, fun ho => absurd ho hc, fun ho => absurd ho hc⟩

/-- After a reset nothing of the registers is looked at (R200). -/
theorem LooksSame.resetEvent {s t : State} (h : LooksSame s t) (rest : List Input) :
    LooksSame (resetEvent rest s) (resetEvent rest t) :=
  looksSame_of_not_open ((not_open_iff _).mpr (.inl rfl)) rfl rfl rfl h.responses

/-- INIT loads the same Context, whatever stood there (R130). -/
theorem LooksSame.loaded {s t s' t' : State} (h : LooksSame s t) (hs : Loaded s s') (ht : Loaded t t') :
    LooksSame s' t' where
  fsm := by rw [hs.fsm, ht.fsm]
  flight := by rw [hs.flight, ht.flight]
  input := by rw [hs.input, ht.input, h.input]
  responses := by rw [hs.answered, ht.answered, h.responses]
  hash _ := by rw [hs.hash, ht.hash]
  count _ := by rw [hs.count, ht.count]
  valid _ := by rw [hs.validBytes, ht.validBytes]

/-- Where the Contexts look the same, taking the same bytes keeps them so (R131). -/
theorem LooksSame.fed {s t s' t' : State} {d : List Byte} (h : LooksSame s t) (ho : s.Open) (hs : Fed d s s')
    (ht : Fed d t t') : LooksSame s' t' where
  fsm := by rw [hs.fsm, ht.fsm, h.fsm]
  flight := by rw [hs.inFlight, ht.inFlight, h.flight]
  input := by rw [hs.input, ht.input, h.input]
  responses := by rw [hs.responses, ht.responses, h.responses]
  hash _ := by rw [hs.hash, ht.hash, h.hash ho, h.valid ho]
  count _ := by rw [hs.count, ht.count, h.count ho]
  valid _ := by rw [hs.valid, ht.valid, h.valid ho]

theorem LooksSame.updated {s t s' t' : State} {d : List Byte} (h : LooksSame s t) (ho : s.Open)
    (hs : Updated d s s') (ht : Updated d t t') : LooksSame s' t' :=
  have hf := h.fed ho hs.fed ht.fed
  have ho' : (s'.setFsm s.fsm).Open := ho
  ⟨hs.fsm.trans ht.fsm.symm, hf.flight, hf.input, hf.responses, fun _ => hf.hash ho', fun _ => hf.count ho',
    fun _ => hf.valid ho'⟩

/-- The digest is read from H alone, and after it the Context is not looked at (R152, R153). -/
theorem LooksSame.finish {p q : State} (h : LooksSame p q) (ho : p.Open) : LooksSame (finish p) (finish q) := by
  have hdigest : p.digest = q.digest := congrArg serialize (h.hash ho)
  refine looksSame_of_not_open ((not_open_iff _).mpr (.inr (finish_fsm p))) ?_ ?_ ?_ ?_
  · rw [finish_fsm, finish_fsm]
  · rw [finish_inFlight, finish_inFlight]
  · rw [finish_input, finish_input, h.input]
  · rw [finish_responses, finish_responses, h.responses, hdigest]

/-- The checks read FSM, the header and the payload alone (R175). -/
theorem LooksSame.rejected {s t : State} {c : Command} {e : Status} (h : LooksSame s t) (why : Rejected c s e) :
    Rejected c t e := by
  cases why with
  | illegal hd => exact .illegal hd
  | wrongState hd hi hc => exact .wrongState hd hi (mt h.open_iff.mpr hc)
  | badLength hd ho hl => exact .badLength hd (h.open_iff.mp ho) (h.payload ▸ hl)

/-! ## A command keeps it -/

/-- Whatever a command does in one state, it does in a state that looks the same. -/
theorem LooksSame.executed {s t s' : State} {c : Command} (h : LooksSame s t) (hs : Executed c s s') :
    ∃ t', execute c t = .next t' ∧ LooksSame s' t' := by
  cases hs with
  | @rejected e why => exact ⟨_, execute_of_rejected (h.rejected why), h.respond e []⟩
  | loaded hd hl =>
    obtain ⟨t', he, hl'⟩ := exec_init_loaded t
    exact ⟨t', by rw [execute_of_decode_ok hd, he], h.loaded hl hl'⟩
  | @updated l u hd ho hl hu =>
    rw [h.payload] at hl hu
    obtain ⟨v, he, hv⟩ := exec_update_of_legal (h.open_iff.mp ho) hl
    exact ⟨_, by rw [execute_of_decode_ok hd, he], (h.updated ho hu hv).respond .ok []⟩
  | @finalized p hd ho h8 hp =>
    rw [h.count ho] at h8 hp
    rw [fill_congr (h.count ho)] at hp
    obtain ⟨q, he, hq⟩ := exec_finalize_of_aligned (h.open_iff.mp ho) h8
    have hpo : p.Open := by rw [State.Open, hp.fsm]; exact ho
    exact ⟨_, by rw [execute_of_decode_ok hd, he], (h.fed ho hp hq).finish hpo⟩

end Sys2Proof
end

section
/-! The statements about the state, from tier 1 to tier 3. -/

namespace Sys2Proof

open Machine

/-- Settles O15. -/
theorem initLoadsInitialContext : Obligations.InitLoadsInitialContext := by
  intro s
  obtain ⟨t, he, ht⟩ := exec_init_loaded s
  exact ⟨t, he, ht.hash, ht.countHi, ht.countLo, ht.fill, ht.fsm, ht.answered, ht.flight, ht.input, ht.compressions⟩

/-- Settles O39. -/
theorem resetIsSafe : Obligations.ResetIsSafe := fun _ =>
  ⟨safe_of_uninit rfl (fun _ hr => absurd hr List.not_mem_nil) rfl, rfl⟩

/-- Settles O22, by UPDATE's three cases: an error keeps COUNT and does not answer OK, and an absorb adds to it. -/
theorem countNeverDecreasesInAMessage : Obligations.CountNeverDecreasesInAMessage := by
  intro s t len he hlt
  obtain ⟨-, he'⟩ | ⟨-, -, he'⟩ | ⟨l, rfl, -, hl, he'⟩ := execUpdate_cases len s
  · obtain rfl : t = raise .errState s := Host.Outcome.next.inj (he.symm.trans he')
    exact ⟨le_refl s.count.toNat, fun hr => absurd hr (raise_responses_ne_ok (by decide) s)⟩
  · obtain rfl : t = raise .errArg s := Host.Outcome.next.inj (he.symm.trans he')
    exact ⟨le_refl s.count.toNat, fun hr => absurd hr (raise_responses_ne_ok (by decide) s)⟩
  · obtain rfl : t = respond .ok [] (updateContext l s) := Host.Outcome.next.inj (he.symm.trans he')
    have hc := (updateContext_updated l s).count_toNat_of_lt hl hlt
    rw [count_respond, hc]
    exact ⟨Nat.le_add_right _ _, fun _ => rfl⟩

/-- Settles O31, by what the command did: an error is the table's own error cell, and each completed command its OK cell. -/
theorem fsmFollowsTheTable : Obligations.FsmFollowsTheTable := by
  intro s c rest h hin
  obtain ⟨t, ht, he⟩ := h.step_executed hin
  cases he with
  | @rejected e why =>
    have hc := raise_accept_sameContext e c rest s
    refine ⟨_, [], ht, fun i hd => ?_, fun x hx => ⟨hc, by rw [why.errIllegal_of_error hx]; rfl⟩⟩
    have hcell : fsmTable s.fsm i c.payload.length = (s.fsm, e) := why.fsmTable_eq hd
    rw [hcell]
    exact ⟨rfl, rfl, fun _ => hc, fun hok => absurd hok.2 why.ne_ok, fun _ => rfl⟩
  | loaded hd hl =>
    refine ⟨_, [], ht, fun i hi => ?_, fun x hx => by simp [hd] at hx⟩
    cases hd.symm.trans hi
    rw [fsmTable_init]
    exact ⟨hl.fsm, hl.answered, fun hne => absurd rfl hne, by simp, fun _ => rfl⟩
  | @updated l u hd ho hl hu =>
    refine ⟨_, [], ht, fun i hi => ?_, fun x hx => by simp [hd] at hx⟩
    cases hd.symm.trans hi
    have hcell : fsmTable s.fsm (.update l) c.payload.length = (.accum, .ok) :=
      fsmTable_update_of_open (s := s) ho hl
    rw [hcell]
    refine ⟨hu.fsm, ?_, fun hne => absurd rfl hne, by simp, fun _ => rfl⟩
    rw [respond_responses, hu.responses, accept_responses]
  | @finalized p hd ho h8 hp =>
    refine ⟨_, p.digest, ht, fun i hi => ?_, fun x hx => by simp [hd] at hx⟩
    cases hd.symm.trans hi
    rw [fsmTable_finalize_of_open (s := s) ho]
    refine ⟨finish_fsm p, ?_, fun hne => absurd rfl hne, fun _ => ?_, fun hno => absurd ⟨rfl, rfl⟩ hno⟩
    · rw [finish_responses, hp.responses, accept_responses]
    · rw [finish_h, State.digest]

/-- Settles O42, by what the command did. -/
theorem hashChangesOnlyByWholeCompressions : Obligations.HashChangesOnlyByWholeCompressions := by
  intro s t c rest hin ht
  cases executed_of_step hin ht with
  | rejected why =>
    exact ⟨fun hd => absurd hd why.decode_ne_init, fun _ => ⟨[], rfl, rfl⟩⟩
  | loaded hd hl => exact ⟨fun _ => hl.hash, fun hn => absurd hd hn⟩
  | updated hd ho hl hu => exact ⟨fun hn => by simp [hd] at hn, fun _ => hu.fed.hash_is_fold⟩
  | finalized hd ho h8 hp =>
    refine ⟨fun hn => by simp [hd] at hn, fun _ => ?_⟩
    rw [finish_h, finish_compressions]
    exact hp.hash_is_fold

/-- Settles O49, by what stands at the port: nothing, a command, or a reset. -/
theorem safeStatesStepToSafeStates : Obligations.SafeStatesStepToSafeStates := by
  intro s h
  match hin : s.input with
  | [] => exact ⟨s, step_idle hin, h⟩
  | .command c :: rest =>
    obtain ⟨t, ht, he⟩ := h.step_executed hin
    exact ⟨t, ht, h.executed he⟩
  | .reset x :: rest => exact ⟨_, step_reset hin, h.resetEvent rest⟩

/-- Settles O40: the next state a safe state steps to is the one of `safeStatesStepToSafeStates`. -/
theorem stepKeepsSafe : Obligations.StepKeepsSafe := by
  intro s t h ht
  obtain ⟨t', ht', hsafe⟩ := safeStatesStepToSafeStates s h
  rw [ht] at ht'
  cases ht'
  exact hsafe

/-- Settles O48, by what stands at the port: nothing, a command, or a reset. -/
theorem unspecifiedStateNeverReachesAResponse : Obligations.UnspecifiedStateNeverReachesAResponse := by
  intro s t s' h hs
  match hin : s.input with
  | [] =>
    rw [step_idle hin] at hs
    cases hs
    exact ⟨t, step_idle (h.input ▸ hin), h⟩
  | .command c :: rest =>
    rw [step_command (h.input ▸ hin)]
    exact (h.accept c rest).executed (executed_of_step hin hs)
  | .reset x :: rest =>
    rw [step_reset hin] at hs
    cases hs
    exact ⟨_, step_reset (h.input ▸ hin), h.resetEvent rest⟩

end Sys2Proof
end

section
/-! SUPPORT. The big-endian byte order of words (R9, R51 to R53), UPDATE of nothing (R60), and what one accepted command does to the two
ports (R63). -/

namespace Sys2Proof.Machine

/-! ## Byte order -/

/-- Word i of a loaded block (R104). -/
theorem loadWindow_getElem (src : Block) (i : Nat) (h : i < 16) :
    (loadWindow src)[i] = be32 src[4 * i] src[4 * i + 1] src[4 * i + 2] src[4 * i + 3] := by
  simp [loadWindow]

theorem bytesBe32_length (w : Word) : (bytesBe32 w).length = 4 := rfl

/-- Byte k of a word is its bits 31 − 8k .. 24 − 8k (R9). -/
theorem bytesBe32_getD (w : Word) {k : Nat} (hk : k < 4) :
    (bytesBe32 w).getD k 0 = w.extractLsb' (24 - 8 * k) 8 := by
  interval_cases k <;> rfl

/-- A byte of a word of L is a byte of L. -/
theorem extractLsb'_byte_of_word (l : BitVec 64) {a b : Nat} (hb : b + 8 ≤ 32) :
    (l.extractLsb' a 32).extractLsb' b 8 = l.extractLsb' (a + b) 8 := by
  apply BitVec.eq_of_getLsbD_eq
  intro i hi
  have hin : b + i < 32 := by omega
  simp [hin, Nat.add_assoc]

/-- Byte k of the length field is its bits 63 − 8k .. 56 − 8k: of the high word for k < 4, of the low word beyond (R52). -/
theorem lengthBytes_getD (l : BitVec 64) {k : Nat} (hk : k < 8) :
    (lengthBytes l).getD k 0 = l.extractLsb' (56 - 8 * k) 8 := by
  rw [lengthBytes]
  by_cases hhigh : k < 4
  · rw [List.getD_append _ _ _ _ hhigh, bytesBe32_getD _ hhigh, extractLsb'_byte_of_word l (by omega)]
    congr 1
    omega
  · have hlow : k - 4 < 4 := by omega
    rw [List.getD_append_right _ _ _ _ (Nat.le_of_not_lt hhigh), bytesBe32_length, bytesBe32_getD _ hlow,
      extractLsb'_byte_of_word l (by omega)]
    congr 1
    omega

/-- In a run of words written out in bytes, byte 4i + k is byte k of word i. -/
theorem flatMap_bytesBe32_getD (ws : List Word) {i k : Nat} (hi : i < ws.length) (hk : k < 4) :
    (ws.flatMap bytesBe32).getD (4 * i + k) 0 = (bytesBe32 ws[i]).getD k 0 := by
  induction ws generalizing i with
  | nil => exact absurd hi (Nat.not_lt_zero i)
  | cons w ws ih =>
    rw [List.flatMap_cons]
    cases i with
    | zero =>
      rw [Nat.mul_zero, Nat.zero_add, List.getD_append _ _ _ _ hk, List.getElem_cons_zero]
    | succ i =>
      rw [List.getD_append_right _ _ _ _ (by rw [bytesBe32_length]; omega), bytesBe32_length,
        show 4 * (i + 1) + k - 4 = 4 * i + k by omega, List.getElem_cons_succ]
      exact ih (Nat.lt_of_succ_lt_succ hi)

/-- The digest is the words of H in order (R53). -/
theorem serialize_eq_flatMap (h : Hash) : serialize h = (List.ofFn fun i : Fin 5 => h[i]).flatMap bytesBe32 := rfl

/-! ## UPDATE of nothing -/

/-- With len = 0, UPDATE writes FSM alone and answers OK (R60, R131, R132). -/
theorem exec_update_zero {s : State} (ho : s.Open) :
    exec (.update 0) s = .next (respond .ok [] (s.setFsm .accum)) := by
  obtain ⟨hc, -⟩ | ⟨-, hbad, -⟩ | ⟨l, hl, -, -, he⟩ := execUpdate_cases 0 s
  · exact absurd ho hc
  · omega
  · obtain rfl : l = 0 := by omega
    exact he

/-! ## The ports -/

/-- A command takes nothing more from the port (R63). -/
theorem Executed.input {c : Command} {s t : State} (h : Executed c s t) : t.input = s.input := by
  cases h with
  | rejected why => exact raise_input _ s
  | loaded hd ht => exact ht.input
  | updated hd ho hl hu => rw [respond_input, hu.input]
  | finalized hd ho h8 hp => rw [finish_input, hp.input]

/-- A command that completes sends exactly one response (R74). -/
theorem Executed.one_response {c : Command} {s t : State} (h : Executed c s t) :
    ∃ r, t.responses = s.responses ++ [r] := by
  cases h with
  | rejected why => exact ⟨_, raise_responses _ s⟩
  | loaded hd ht => exact ⟨_, ht.answered⟩
  | updated hd ho hl hu => exact ⟨_, by rw [respond_responses, hu.responses]⟩
  | finalized hd ho h8 hp => exact ⟨_, by rw [finish_responses, hp.responses]⟩

end Sys2Proof.Machine
end

section
/-! The statements about byte order, idempotence and the order of events. -/

namespace Sys2Proof

open Machine

/-- Settles O38, by the event taken: a command answers once, a reset not at all. -/
theorem commandsAreTakenInOrder : Obligations.CommandsAreTakenInOrder := by
  intro s t e rest hin ht
  cases e with
  | command c =>
    have he := executed_of_step hin ht
    obtain ⟨r, hr⟩ := he.one_response
    exact ⟨he.input, [r], hr, le_refl 1⟩
  | reset c =>
    rw [step_reset hin] at ht
    cases ht
    exact ⟨rfl, [], (List.append_nil _).symm, Nat.zero_le 1⟩

/-- Settles O11, by the value of a big-endian word. -/
theorem blockWordsAreBigEndian : Obligations.BlockWordsAreBigEndian := by
  intro src i h
  rw [loadWindow_getElem src i h, be32_toNat]

/-- Settles O16: every INIT loads the same H, COUNT and FSM, with an empty valid prefix. -/
theorem initTwiceIsInitOnce : Obligations.InitTwiceIsInitOnce := by
  intro s
  obtain ⟨t, het, ht⟩ := exec_init_loaded s
  obtain ⟨u, heu, hu⟩ := exec_init_loaded t
  exact ⟨t, u, het, heu, hu.hash.trans ht.hash.symm, hu.countHi.trans ht.countHi.symm,
    hu.countLo.trans ht.countLo.symm, hu.fsm.trans ht.fsm.symm, hu.validBytes.trans ht.validBytes.symm⟩

/-- Settles O19: past its checks, UPDATE of nothing is the write of FSM. -/
theorem updateOfNothingChangesOnlyFsm : Obligations.UpdateOfNothingChangesOnlyFsm :=
  fun _ ho => ⟨_, exec_update_zero ho, rfl, rfl, rfl, rfl, rfl, rfl, rfl⟩

/-- Settles O28: each byte is a field of L, read here as a quotient. -/
theorem lengthFieldIsBigEndian : Obligations.LengthFieldIsBigEndian := by
  intro l
  refine ⟨lengthBytes_length l, fun k hk => ?_⟩
  rw [lengthBytes_getD l hk, BitVec.extractLsb'_toNat, Nat.shiftRight_eq_div_pow]

/-- Settles O29: the digest is a run of words written out in bytes. -/
theorem digestIsBigEndian : Obligations.DigestIsBigEndian := by
  intro h
  refine ⟨serialize_length h, fun i k hi hk => ?_⟩
  rw [serialize_eq_flatMap, flatMap_bytesBe32_getD _ (by rwa [List.length_ofFn]) hk, bytesBe32_getD _ hk,
    List.getElem_ofFn, BitVec.extractLsb'_toNat, Nat.shiftRight_eq_div_pow]
  rfl

end Sys2Proof
end

section
/-! SUPPORT. The decoder and the encoder are inverse (R71, R76); which headers decode to each command, and which rows of the opcode table
admit them (R73). -/

namespace Sys2Proof

/-! ## Decode and encode -/

/-- A LEN that fits its field is read back (R72). -/
theorem sint32_ofInt {len : Int} (h : lenFits len = true) : sint32 (BitVec.ofInt 32 len) = len := by
  obtain ⟨hlo, hhi⟩ := (lenFits_iff len).mp h
  exact BitVec.toInt_ofInt_eq_self (by decide) (by norm_num; omega) (by norm_num; omega)

/-- INIT and FINALIZE have nothing beside their OP (R76). -/
theorem decodeBare_of_empty {i : Instr} {hdr : BitVec 64} (hlen : hdrLen hdr = 0) : decodeBare i hdr 0 = .ok i := by
  simp [decodeBare, hlen]

/-- The decoder reads back each field that the encoder wrote (R71, R76). -/
theorem decode_encode {i : Instr} {n : Nat} (hwf : i.wf = true) (hn : i = .init ∨ i = .finalize → n = 0) :
    decode (encode i) n = .ok i := by
  obtain ⟨hrsvd, hop, hlen⟩ := encode_fields i
  cases i with
  | init =>
    obtain rfl := hn (.inl rfl)
    simp [decode, hrsvd, hop, Instr.op, decodeBare_of_empty hlen]
  | update len => simp [decode, hrsvd, hop, hlen, Instr.op, Instr.lenField, sint32_ofInt hwf]
  | finalize =>
    obtain rfl := hn (.inr rfl)
    simp [decode, hrsvd, hop, Instr.op, decodeBare_of_empty hlen]

/-- A header that decodes has no bit that the encoder would not write: RSVD is zero, and so is LEN on INIT and FINALIZE (R76). -/
theorem encode_of_decode {hdr : BitVec 64} {n : Nat} {i : Instr} (h : decode hdr n = .ok i) : encode i = hdr := by
  obtain ⟨hrsvd, hi⟩ := decode_ok h
  rw [header_eq_fields hdr, hrsvd, encode]
  obtain ⟨rfl, hop, hlen, -⟩ | ⟨rfl, hop⟩ | ⟨rfl, hop, hlen, -⟩ := hi
  · rw [hop, hlen]; rfl
  · rw [hop, Instr.lenField, sint32, BitVec.ofInt_toInt]; rfl
  · rw [hop, hlen]; rfl

theorem wf_of_decode {hdr : BitVec 64} {n : Nat} {i : Instr} (h : decode hdr n = .ok i) : i.wf = true := by
  obtain ⟨-, ⟨rfl, -⟩ | ⟨rfl, -⟩ | ⟨rfl, -⟩⟩ := decode_ok h
  · rfl
  · exact sint32_fits (hdrLen hdr)
  · rfl

/-- INIT and FINALIZE decode only with an empty payload (R76). -/
theorem payload_empty_of_decode {hdr : BitVec 64} {n : Nat} {i : Instr} (h : decode hdr n = .ok i)
    (hi : i = .init ∨ i = .finalize) : n = 0 := by
  obtain ⟨-, ⟨-, -, -, hn⟩ | ⟨rfl, -⟩ | ⟨-, -, -, hn⟩⟩ := decode_ok h
  · exact hn
  · simp at hi
  · exact hn

/-- The decoder inverts the encoder on every header (R76). -/
theorem decode_eq_ok_iff {hdr : BitVec 64} {n : Nat} {i : Instr} :
    decode hdr n = .ok i ↔ hdr = encode i ∧ i.wf = true ∧ (i = .init ∨ i = .finalize → n = 0) := by
  constructor
  · exact fun h => ⟨(encode_of_decode h).symm, wf_of_decode h, payload_empty_of_decode h⟩
  · rintro ⟨rfl, hwf, hn⟩
    exact decode_encode hwf hn

/-! ## The headers of each command -/

/-- One header is INIT's (R76). -/
theorem decode_eq_init_iff {hdr : BitVec 64} {n : Nat} : decode hdr n = .ok .init ↔ hdr = 1 ∧ n = 0 := by
  rw [decode_eq_ok_iff, show encode .init = 1 from rfl]
  simp [Instr.wf]

/-- One header is FINALIZE's (R76). -/
theorem decode_eq_finalize_iff {hdr : BitVec 64} {n : Nat} : decode hdr n = .ok .finalize ↔ hdr = 3 ∧ n = 0 := by
  rw [decode_eq_ok_iff, show encode .finalize = 3 from rfl]
  simp [Instr.wf]

/-- The low word of a header is RSVD and OP (R71). -/
theorem lowWord_eq_two_iff (hdr : BitVec 64) : hdr.extractLsb' 0 32 = 2 ↔ hdrRsvd hdr = 0 ∧ hdrOp hdr = 2 := by
  have h := hdr.isLt
  simp only [hdrRsvd, hdrOp, ← BitVec.toNat_inj, BitVec.extractLsb'_toNat, Nat.shiftRight_eq_div_pow,
    BitVec.ofNat_eq_ofNat, BitVec.toNat_ofNat]
  omega

/-- The headers of UPDATE are those with its low word, whatever LEN and the payload are (R76). -/
theorem decode_eq_update_iff {hdr : BitVec 64} {n : Nat} {len : Int} :
    decode hdr n = .ok (.update len) ↔ hdr.extractLsb' 0 32 = 2 ∧ len = sint32 (hdrLen hdr) := by
  rw [lowWord_eq_two_iff]
  constructor
  · intro h
    obtain ⟨hrsvd, ⟨hi, -⟩ | ⟨hi, hop⟩ | ⟨hi, -⟩⟩ := decode_ok h
    · cases hi
    · exact ⟨⟨hrsvd, hop⟩, Instr.update.inj hi⟩
    · cases hi
  · rintro ⟨⟨hrsvd, hop⟩, rfl⟩
    simp [decode, hrsvd, hop]

/-- UPDATE's header as a number: {len mod 2^32, 0x000000, 0x02} (R80). -/
theorem encode_update_toNat (len : Int) : ((encode (.update len)).toNat : Int) = len % 2 ^ 32 * 2 ^ 32 + 2 := by
  obtain ⟨hrsvd, hop, hlen⟩ := encode_fields (.update len)
  have hfield : ((BitVec.ofInt 32 len).toNat : Int) = len % 2 ^ 32 := by
    rw [BitVec.toNat_ofInt]; omega
  rw [header_toNat, hrsvd, hop, hlen, Instr.lenField, Instr.op]
  push_cast
  rw [hfield]
  norm_num

/-! ## The opcode table -/

theorem Instr.mnemonic_eq_init_iff (i : Instr) : i.mnemonic = "INIT" ↔ i = .init := by
  cases i <;> simp [Instr.mnemonic]

theorem Instr.mnemonic_eq_update_iff (i : Instr) : i.mnemonic = "UPDATE" ↔ ∃ len, i = .update len := by
  cases i <;> simp [Instr.mnemonic]

theorem Instr.mnemonic_eq_finalize_iff (i : Instr) : i.mnemonic = "FINALIZE" ↔ i = .finalize := by
  cases i <;> simp [Instr.mnemonic]

/-- A row whose mask is every bit admits its value alone (R73). -/
theorem admits_iff_of_full_mask (m : String) (v hdr : BitVec 64) :
    (OpcodeRow.mk m 0xFFFFFFFFFFFFFFFF v).admits hdr = true ↔ hdr = v := by
  rw [OpcodeRow.admits, decide_eq_true_iff, show (0xFFFFFFFFFFFFFFFF : BitVec 64) = BitVec.allOnes 64 from rfl,
    BitVec.and_allOnes]

/-- UPDATE's row looks at the low word alone (R73). -/
theorem admits_iff_of_low_mask (m : String) (hdr : BitVec 64) :
    (OpcodeRow.mk m 0x00000000FFFFFFFF 2).admits hdr = true ↔ hdr.extractLsb' 0 32 = 2 := by
  have hmask : hdr.toNat &&& 4294967295 = hdr.toNat % 4294967296 := Nat.and_two_pow_sub_one_eq_mod hdr.toNat 32
  rw [OpcodeRow.admits, decide_eq_true_iff, ← BitVec.toNat_inj, ← BitVec.toNat_inj]
  simp [hmask]

end Sys2Proof
end

section
/-! SUPPORT. A step by the header at the port (R76), the one response of a command (R74), what UPDATE reads of its payload (R78), FINALIZE's
closed form (R154), and the commands the host issues (R80, R81). -/

namespace Sys2Proof.Machine

/-! ## What each header does -/

/-- A step on a command that decodes is exec of what it decodes to (R76). -/
theorem step_of_decode_ok {s : State} {c : Command} {rest : List Input} {i : Instr} (hin : s.input = .command c :: rest)
    (hd : c.decode = .ok i) : step s = exec i (accept c rest s) := by
  rw [step_command hin, execute_of_decode_ok hd]

/-- A step on a header the decoder rejects records nothing (R171). -/
theorem step_of_decode_error {s : State} {c : Command} {rest : List Input} {x : Illegal}
    (hin : s.input = .command c :: rest) (hd : c.decode = .error x) :
    ∃ t, step s = .next t ∧ Errored .errIllegal (accept c rest s) t :=
  ⟨_, by rw [step_command hin, execute_of_rejected (.illegal hd)], raise_errored _ _⟩

/-- After a command none is in flight (R204). -/
theorem Executed.inFlight {c : Command} {s t : State} (h : Executed c s t) : t.inFlight = none := by
  cases h with
  | rejected why => exact raise_inFlight _ s
  | loaded hd ht => exact ht.flight
  | updated hd ho hl hu => exact respond_inFlight _ _ _
  | finalized hd ho h8 hp => exact finish_inFlight _

/-- The one response has a DIGEST, the words of H, exactly on FINALIZE's OK (R74). -/
theorem Executed.digest {c : Command} {s t : State} (h : Executed c s t) :
    ∃ r, t.responses = s.responses ++ [r] ∧
      (c.decode = .ok .finalize ∧ r.status = .ok → r.digest = serialize t.h) ∧
      (¬(c.decode = .ok .finalize ∧ r.status = .ok) → r.digest = []) := by
  cases h with
  | rejected why => exact ⟨_, raise_responses _ s, fun hok => absurd hok.2 why.ne_ok, fun _ => rfl⟩
  | loaded hd ht => exact ⟨_, ht.answered, fun hok => by simp [hd] at hok, fun _ => rfl⟩
  | @updated l u hd ho hl hu =>
    exact ⟨_, by rw [respond_responses, hu.responses], fun hok => by simp [hd] at hok, fun _ => rfl⟩
  | @finalized p hd ho h8 hp =>
    refine ⟨⟨.ok, p.digest⟩, by rw [finish_responses, hp.responses], fun _ => ?_, fun hno => absurd ⟨hd, rfl⟩ hno⟩
    rw [finish_h, State.digest]

/-! ## UPDATE reads only the payload's first len bytes -/

@[simp] theorem payload_withFlight (c : Command) (s : State) : (s.withFlight (some c)).payload = c.payload := rfl

theorem respond_withFlight (st : Status) (dg : List Byte) (x : Option Command) (s : State) :
    respond st dg (s.withFlight x) = respond st dg s := rfl

theorem raise_withFlight (e : Status) (x : Option Command) (s : State) : raise e (s.withFlight x) = raise e s := rfl

/-- UPDATE completes in every state (R132). -/
theorem exec_update_completes (len : Int) (s : State) : ∃ t, exec (.update len) s = .next t := by
  obtain ⟨-, he⟩ | ⟨-, -, he⟩ | ⟨l, -, -, -, he⟩ := execUpdate_cases len s <;> exact ⟨_, he⟩

/-- The context that a legal UPDATE answers on (R132). -/
theorem exec_update_of_legal_eq {l : Nat} {s : State} (ho : s.Open) (hl : l ≤ s.payload.length) :
    exec (.update l) s = .next (respond .ok [] (updateContext l s)) := by
  obtain ⟨hc, -⟩ | ⟨-, hbad, -⟩ | ⟨l', hl', -, -, he⟩ := execUpdate_cases l s
  · exact absurd ho hc
  · omega
  · obtain rfl : l = l' := by omega
    exact he

/-- Past its checks UPDATE uses the payload's first `len` bytes alone, and leaves the command in flight (R78). -/
theorem updateContext_withFlight {c d : Command} {len : Nat} (h : c.payload.take len = d.payload.take len) (s : State) :
    updateContext len (s.withFlight (some c)) = (updateContext len (s.withFlight (some d))).withFlight (some c) := by
  simp only [updateContext, payload_withFlight, h, withFlight_absorb]
  split <;> rfl

/-- Two payloads that agree on their first `len` bytes, both at least that long, give one outcome (R78). -/
theorem exec_update_withFlight {c d : Command} {len : Nat} (hc : len ≤ c.payload.length) (hd : len ≤ d.payload.length)
    (h : c.payload.take len = d.payload.take len) (s : State) :
    exec (.update len) (s.withFlight (some c)) = exec (.update len) (s.withFlight (some d)) := by
  by_cases ho : s.Open
  · have legal {x : Command} (hx : len ≤ x.payload.length) :
        exec (.update len) (s.withFlight (some x)) = .next (respond .ok [] (updateContext len (s.withFlight (some x)))) :=
      exec_update_of_legal_eq ho hx
    rw [legal hc, legal hd, updateContext_withFlight h, respond_withFlight]
  · have closed (x : Command) :
        exec (.update len) (s.withFlight (some x)) = .next (raise .errState (s.withFlight (some x))) :=
      exec_of_not_open nofun ho
    rw [closed c, closed d, raise_withFlight, raise_withFlight]

/-! ## The closed form of the digest -/

/-- With the Context of m, BUF holds m mod 64 bytes (R24, R135). -/
theorem Holds.fill {s : State} {m : List Byte} (h : Holds s m) : s.fill = m.length % 64 := by
  rw [← validBytes_length s, h.valid, tailBytes_length]

/-- What FINALIZE feeds after m completes `pad(m)` (R154). -/
theorem Holds.append_padding {s : State} {m : List Byte} (h : Holds s m) : m ++ padding s.fill s.count = pad m := by
  have hz : zeroCount (m.length % 64) = zeroCount m.length := by rw [zeroCount, zeroCount, Nat.mod_mod]
  rw [h.fill, h.count, padding, hz, pad]
  simp

/-- FINALIZE answers the closed form over the message held (R154). -/
theorem exec_finalize_of_holds {s : State} {m : List Byte} (ho : s.Open) (hm : Holds s m) :
    ∃ t, exec .finalize s = .next t ∧ t.responses = s.responses ++ [⟨.ok, sha1 m⟩] := by
  obtain ⟨p, he, hp⟩ := exec_finalize_of_aligned ho hm.aligned
  have hhash : p.h = compressStar hInit (pad m) := by
    rw [(hp.holds hm).hash, compressStar_wholeBlocks, hm.append_padding]
  exact ⟨_, he, by rw [finish_responses, hp.responses, State.digest, hhash, sha1]⟩

/-! ## The host's commands -/

theorem withFlight_sameContext (x : Option Command) (s : State) : SameContext s (s.withFlight x) :=
  ⟨rfl, rfl, rfl, rfl, rfl⟩

theorem respond_sameContext (st : Status) (dg : List Byte) (s : State) : SameContext s (respond st dg s) :=
  ⟨rfl, rfl, rfl, rfl, rfl⟩

theorem decode_commandOf {i : Instr} {d : List Byte} (hwf : i.wf = true) (hd : i = .init ∨ i = .finalize → d = []) :
    (Command.of i d).decode = .ok i := by
  rw [Command.decode, Command.of]
  exact decode_encode hwf fun h => List.length_eq_zero_iff.mpr (hd h)

/-- The host's command is the one at the front of the port (R70, R204). -/
theorem issue_eq_execute (c : Command) (s : State) : issue c s = execute c (s.withFlight (some c)) := by
  rw [issue, step_command (present_input c s)]
  rfl

/-- Issuing an instruction that the encoding can express runs it (R76, R80). -/
theorem issue_commandOf {i : Instr} {d : List Byte} (hwf : i.wf = true) (hd : i = .init ∨ i = .finalize → d = [])
    (s : State) : issue (Command.of i d) s = exec i (s.withFlight (some (Command.of i d))) := by
  rw [issue_eq_execute, execute_of_decode_ok (decode_commandOf hwf hd)]

theorem lastStatus_of_answered {s : State} {rs : List Response} {r : Response} (h : s.responses = rs ++ [r]) :
    s.lastStatus = some r.status := by
  simp [State.lastStatus, h]

/-- The host goes on after an OK (R81). -/
theorem issueAll_cons_of_ok {c : Command} {cs : List Command} {s t : State} (h : issue c s = .next t)
    (hok : t.lastStatus = some .ok) : issueAll (c :: cs) s = issueAll cs t := by
  simp only [issueAll, h, if_pos hok]

/-- The host stops at any other response (R81). -/
theorem issueAll_cons_of_not_ok {c : Command} {cs : List Command} {s t : State} (h : issue c s = .next t)
    (hno : t.lastStatus ≠ some .ok) : issueAll (c :: cs) s = .next t := by
  simp only [issueAll, h, if_neg hno]

theorem issue_init (s : State) :
    ∃ t, issue (Command.of .init []) s = .next t ∧ Loaded (s.withFlight (some (Command.of .init []))) t := by
  rw [issue_commandOf rfl fun _ => rfl]
  exact exec_init_loaded _

theorem issue_updateCommand {len : Int} (hfits : lenFits len = true) (d : List Byte) (s : State) :
    issue (updateCommand len d) s = exec (.update len) (s.withFlight (some (updateCommand len d))) :=
  issue_commandOf (i := .update len) hfits nofun s

/-- A legal UPDATE answers OK and extends the message (R132, R135). -/
theorem issue_update_of_holds {s : State} {m d : List Byte} {l : Nat} (hfits : lenFits l = true) (ho : s.Open)
    (hm : Holds s m) (hl : l ≤ d.length) :
    ∃ t, issue (updateCommand l d) s = .next t ∧ t.lastStatus = some .ok ∧ t.Open ∧ Holds t (m ++ d.take l) := by
  have hm' := holds_congr (withFlight_sameContext (some (updateCommand l d)) s) hm
  obtain ⟨u, he, hu⟩ := exec_update_of_legal (s := s.withFlight (some (updateCommand l d))) ho hl
  refine ⟨respond .ok [] u, (issue_updateCommand hfits d s).trans he, lastStatus_of_answered (respond_responses .ok [] u),
    .inr hu.fsm, ?_⟩
  exact holds_congr (respond_sameContext .ok [] u) (hu.holds hm')

/-- A bad len answers ERR_ARG (R172). -/
theorem issue_update_of_bad_length {s : State} {len : Int} {d : List Byte} (hfits : lenFits len = true) (ho : s.Open)
    (hl : len < 0 ∨ (d.length : Int) < len) :
    issue (updateCommand len d) s = .next (raise .errArg s) := by
  have he := exec_update_of_bad_length (s := s.withFlight (some (updateCommand len d))) ho hl
  rw [issue_updateCommand hfits, he, raise_withFlight]

/-- FINALIZE answers OK with the closed form over the message held (R150, R154). -/
theorem issue_finalize_of_holds {s : State} {m : List Byte} (ho : s.Open) (hm : Holds s m) :
    ∃ t, issue (Command.of .finalize []) s = .next t ∧ t.responses = s.responses ++ [⟨.ok, sha1 m⟩] := by
  rw [issue_commandOf rfl fun _ => rfl]
  exact exec_finalize_of_holds ho (holds_congr (withFlight_sameContext _ s) hm)

end Sys2Proof.Machine
end

section
/-! The statements about the encoding, the headers, the payload, the responses and COMPUTE. -/

namespace Sys2Proof

open Machine

/-- Settles O2: the decoder reads back each field that the encoder wrote. -/
theorem decodeOfEncode : Obligations.DecodeOfEncode := fun _ _ hwf hn => decode_encode hwf hn

/-- Settles O3: a header is its three fields, and decoding fixes all of them. -/
theorem encodeOfDecode : Obligations.EncodeOfDecode := fun _ _ _ h => ⟨encode_of_decode h, wf_of_decode h⟩

/-- Settles O4, row by row: a row and its command each single out the same headers. -/
theorem decoderAgreesWithOpcodeTable : Obligations.DecoderAgreesWithOpcodeTable := by
  intro hdr r hr
  simp only [opcodeTable, List.mem_cons, List.not_mem_nil, or_false] at hr
  obtain rfl | rfl | rfl := hr
  · rw [admits_iff_of_full_mask]
    simp [Instr.mnemonic_eq_init_iff, decode_eq_init_iff]
  · rw [admits_iff_of_low_mask]
    simp [Instr.mnemonic_eq_update_iff, decode_eq_update_iff]
  · rw [admits_iff_of_full_mask]
    simp [Instr.mnemonic_eq_finalize_iff, decode_eq_finalize_iff]

/-- Settles O5: each clause is the header of one command, and the last is what no command's header meets. -/
theorem executeFollowsTheHeader : Obligations.ExecuteFollowsTheHeader := by
  intro s c rest hin
  have hinit : c.decode = .ok .init ↔ c.hdr = 1 ∧ c.payload = [] :=
    decode_eq_init_iff.trans (and_congr_right fun _ => List.length_eq_zero_iff)
  have hfinalize : c.decode = .ok .finalize ↔ c.hdr = 3 ∧ c.payload = [] :=
    decode_eq_finalize_iff.trans (and_congr_right fun _ => List.length_eq_zero_iff)
  refine ⟨fun h => step_of_decode_ok hin (hinit.mpr h),
    fun h => step_of_decode_ok hin (decode_eq_update_iff.mpr ⟨h, rfl⟩),
    fun h => step_of_decode_ok hin (hfinalize.mpr h), fun hni hnu hnf => ?_⟩
  cases hd : c.decode with
  | error x => exact step_of_decode_error hin hd
  | ok i =>
    cases i with
    | init => exact absurd (hinit.mp hd) hni
    | update len => exact absurd (decode_eq_update_iff.mp hd).1 hnu
    | finalize => exact absurd (hfinalize.mp hd) hnf

/-- Settles O20: the two UPDATEs have one outcome. -/
theorem bytesBeyondLenAreIgnored : Obligations.BytesBeyondLenAreIgnored := by
  intro s hdr p q len hlen
  have hpre : (p.take len).length = len := List.length_take_of_le hlen
  have hsame : exec (.update len) (s.withFlight (some ⟨hdr, p⟩)) =
      exec (.update len) (s.withFlight (some ⟨hdr, p.take len ++ q⟩)) :=
    exec_update_withFlight hlen (by simp; omega) (List.take_left' hpre).symm s
  obtain ⟨t, ht⟩ := exec_update_completes len (s.withFlight (some ⟨hdr, p⟩))
  exact ⟨t, t, ht, hsame.symm.trans ht, rfl, rfl, rfl, rfl, rfl, rfl, rfl, rfl, rfl⟩

/-- Settles O34, by what the command did. -/
theorem oneResponsePerCommand : Obligations.OneResponsePerCommand := by
  intro s c rest h hin
  obtain ⟨t, ht, he⟩ := h.step_executed hin
  obtain ⟨r, hr, hdigest, hnone⟩ := he.digest
  exact ⟨t, r, ht, hr, he.inFlight, he.input, fun hok => ⟨hdigest hok, by rw [hdigest hok, serialize_length]⟩, hnone⟩

/-- Settles O47: INIT holds the empty message; then a legal UPDATE extends it and FINALIZE answers its digest, or a bad one stops the host. -/
theorem computeGivesTheDigestOrErrArg : Obligations.ComputeGivesTheDigestOrErrArg := by
  intro s len d hfits
  obtain ⟨a, hinit, ha⟩ := issue_init s
  have hrest : compute len d s = issueAll [updateCommand len d, Command.of .finalize []] a :=
    issueAll_cons_of_ok hinit (lastStatus_of_answered ha.answered)
  have hopen : a.Open := .inl ha.fsm
  rw [hrest]
  refine ⟨fun h0 hn => ?_, fun hbad => ?_⟩
  · obtain ⟨l, rfl⟩ := Int.eq_ofNat_of_zero_le h0
    obtain ⟨b, hupdate, hok, hbo, hb⟩ := issue_update_of_holds (d := d) hfits hopen ha.holds (by omega)
    obtain ⟨t, hfinal, ht⟩ := issue_finalize_of_holds hbo hb
    rw [issueAll_cons_of_ok hupdate hok, issueAll_single, hfinal, Int.toNat_natCast]
    exact ⟨t, rfl, by rw [ht, List.getLast?_concat]; rfl⟩
  · have hupdate := issue_update_of_bad_length hfits hopen hbad
    have hno : (raise .errArg a).lastStatus ≠ some .ok := by
      rw [lastStatus_of_answered (raise_responses .errArg a)]; decide
    rw [issueAll_cons_of_not_ok hupdate hno]
    exact ⟨_, rfl, by rw [raise_responses, List.getLast?_concat], ha.fsm, ha.hash, ha.countHi, ha.countLo⟩

/-- Settles O1: a computation on five fixed words. -/
theorem writtenHeadersDecode : Obligations.WrittenHeadersDecode := by
  unfold Obligations.WrittenHeadersDecode
  decide

/-- Settles O6. -/
theorem stepRunsDecodedCommand : Obligations.StepRunsDecodedCommand := fun _ _ _ _ hin hd => step_of_decode_ok hin hd

/-- Settles O8: both forms are the encoder's UPDATE, and a number of bytes is a len that is not negative. -/
theorem updateTextEncodesLen : Obligations.UpdateTextEncodesLen := by
  intro len d
  refine ⟨⟨_, rfl, encode_update_toNat len, rfl⟩, ⟨_, rfl, ?_, rfl⟩⟩
  exact_mod_cast encode_update_toNat d.bytes.length

end Sys2Proof
end

section
/-! The compressor's facts (R100, R102, R105, R106): the bits of a rotation and of each round function, and what the rolling window holds
before each round. -/

namespace Sys2Proof.Machine

/-! ## Rotation -/

/-- R100: a rotation moves bit (i − n) mod 32 to bit i. -/
theorem rotl_getLsbD (x : Word) {n i : Nat} (h1 : 1 ≤ n) (h2 : n ≤ 31) (hi : i < 32) :
    (rotl x n).getLsbD i = x.getLsbD ((i + 32 - n) % 32) := by
  rw [rotl_eq_rotateLeft x n h1 h2, BitVec.getLsbD_rotateLeft, Nat.mod_eq_of_lt (by omega : n < 32), Bool.cond_decide]
  by_cases hlow : i < n
  · rw [if_pos hlow, Nat.mod_eq_of_lt (by omega), show 32 - n + i = i + 32 - n by omega]
  · rw [if_neg hlow, decide_eq_true hi, Bool.true_and, show (i + 32 - n) % 32 = i - n by omega]

/-- The value of a rotation is R100's formula on values. -/
theorem rotl_toNat (x : Word) (n : Nat) :
    (rotl x n).toNat = ((x.toNat * 2 ^ n) ||| (x.toNat / 2 ^ (32 - n))) % 2 ^ 32 := by
  have hright : x.toNat / 2 ^ (32 - n) < 2 ^ 32 := (Nat.div_le_self _ _).trans_lt x.isLt
  rw [rotl, BitVec.toNat_or, BitVec.toNat_shiftLeft, BitVec.toNat_ushiftRight, Nat.shiftLeft_eq, Nat.shiftRight_eq_div_pow,
    Nat.or_mod_two_pow, Nat.mod_eq_of_lt hright]

/-- Two rotations that turn the word once round give it back (R100). -/
theorem rotl_rotl_of_add_eq (x : Word) {m n : Nat} (hm : 1 ≤ m) (hn : 1 ≤ n) (h : m + n = 32) : rotl (rotl x m) n = x := by
  apply BitVec.eq_of_getLsbD_eq
  intro i hi
  have hback : ((i + 32 - n) % 32 + 32 - m) % 32 = i := by omega
  rw [rotl_getLsbD _ hn (by omega) hi, rotl_getLsbD _ hm (by omega) (Nat.mod_lt _ (by decide)), hback]

/-! ## The round functions -/

theorem fCh_getLsbD (b c d : Word) (i : Nat) :
    (fCh b c d).getLsbD i = if b.getLsbD i then c.getLsbD i else d.getLsbD i := by
  rw [fCh, BitVec.getLsbD_xor, BitVec.getLsbD_and, BitVec.getLsbD_xor]
  cases b.getLsbD i <;> simp

theorem fPar_getLsbD (b c d : Word) (i : Nat) :
    (fPar b c d).getLsbD i = decide (((b.getLsbD i).toNat + (c.getLsbD i).toNat + (d.getLsbD i).toNat) % 2 = 1) := by
  rw [fPar, BitVec.getLsbD_xor, BitVec.getLsbD_xor]
  cases b.getLsbD i <;> cases c.getLsbD i <;> cases d.getLsbD i <;> rfl

theorem fMaj_getLsbD (b c d : Word) (i : Nat) :
    (fMaj b c d).getLsbD i = decide (2 ≤ (b.getLsbD i).toNat + (c.getLsbD i).toNat + (d.getLsbD i).toNat) := by
  rw [fMaj, BitVec.getLsbD_or, BitVec.getLsbD_or, BitVec.getLsbD_and, BitVec.getLsbD_and, BitVec.getLsbD_and]
  cases b.getLsbD i <;> cases c.getLsbD i <;> cases d.getLsbD i <;> rfl

/-- Rounds 0..19 choose (R101). -/
theorem roundF_eq_fCh {t : Nat} (h : t < 20) : roundF t = fCh := if_pos h

/-- Rounds 40..59 take the majority (R101). -/
theorem roundF_eq_fMaj {t : Nat} (h : 40 ≤ t ∧ t < 60) : roundF t = fMaj := by
  rw [roundF, if_neg (by omega), if_neg (by omega), if_pos h.2]

/-- The other rounds take the parity (R101). -/
theorem roundF_eq_fPar {t : Nat} (h1 : ¬ t < 20) (h2 : ¬ (40 ≤ t ∧ t < 60)) : roundF t = fPar := by
  rw [roundF, if_neg h1]
  split_ifs with h40 h60
  · rfl
  · exact absurd ⟨by omega, h60⟩ h2
  · rfl

/-! ## The rolling window -/

/-- The window a round leaves is the one it used (R107). -/
theorem runRounds_succ_w (n : Nat) (x : Work) : (runRounds (n + 1) x).w = (schedule n (runRounds n x)).w := rfl

/-- Round t's expansion leaves every slot but its own (R105). -/
theorem schedule_get_ne (t : Nat) (x : Work) {k : Fin 16} (h : k ≠ slot t) : (schedule t x).w.get k = x.w.get k := by
  by_cases ht : t < 16
  · rw [schedule_early t x ht]
  · rw [schedule_late t x (by omega), expand_get_ne t x.w k h]

/-- Up to round 16 the window is as loaded (R101). -/
theorem runRounds_w_early (x : Work) {n : Nat} (h : n ≤ 16) : (runRounds n x).w = x.w := by
  induction n with
  | zero => rfl
  | succ n ih => rw [runRounds_succ_w, schedule_early n _ (by omega), ih (by omega)]

/-- The first 16 words used are the loaded ones (R104). -/
theorem usedWord_early (h : Hash) (src : Block) {t : Nat} (ht : t < 16) : usedWord h src t = (loadWindow src)[t] := by
  have hslot : (slot t).val = t := Nat.mod_eq_of_lt ht
  rw [usedWord, schedule_early t _ ht, runRounds_w_early _ (by omega), Vector.get_eq_getElem]
  simp only [hslot, startWork]

/-- The window's invariant (R106): before round t it holds the words used in the 16 rounds before, each in the slot of its round. -/
theorem runRounds_w_get_slot (h : Hash) (src : Block) {t k : Nat} (hk : k < t) (ht : t ≤ k + 16) :
    (runRounds t (startWork h src)).w.get (slot k) = usedWord h src k := by
  induction t with
  | zero => omega
  | succ t ih =>
    rw [runRounds_succ_w]
    obtain rfl | hlt : k = t ∨ k < t := by omega
    · rfl
    · rw [schedule_get_ne t _ (slot_ne (by omega)), ih hlt (by omega)]

/-- The recurrence of R106: expansion reads the words used 3, 8, 14 and 16 rounds before. -/
theorem usedWord_recurrence (h : Hash) (src : Block) {t : Nat} (ht : 16 ≤ t) :
    usedWord h src t =
      rotl (usedWord h src (t - 3) ^^^ usedWord h src (t - 8) ^^^ usedWord h src (t - 14) ^^^ usedWord h src (t - 16)) 1 := by
  rw [usedWord, schedule_late t _ ht, expand_get_self,
    slot_congr (by omega : (t + 13) % 16 = (t - 3) % 16), slot_congr (by omega : (t + 8) % 16 = (t - 8) % 16),
    slot_congr (by omega : (t + 2) % 16 = (t - 14) % 16), slot_congr (by omega : t % 16 = (t - 16) % 16),
    runRounds_w_get_slot h src (by omega) (by omega), runRounds_w_get_slot h src (by omega) (by omega),
    runRounds_w_get_slot h src (by omega) (by omega), runRounds_w_get_slot h src (by omega) (by omega)]

end Sys2Proof.Machine
end

section
/-! The statements about the block compressor. -/

namespace Sys2Proof

open Machine

/-- Settles O10, by the range of the round and then the bits of its function. -/
theorem roundFunctionsBitByBit : Obligations.RoundFunctionsBitByBit := by
  intro t b c d i _
  split_ifs with hch hb hmaj
  · rw [roundF_eq_fCh hch, fCh_getLsbD, if_pos hb]
  · rw [roundF_eq_fCh hch, fCh_getLsbD, if_neg hb]
  · rw [roundF_eq_fMaj hmaj, fMaj_getLsbD]
  · rw [roundF_eq_fPar hch hmaj, fPar_getLsbD]

/-- Settles O12: the loaded words up to round 15, then the window's invariant at the four slots that expansion reads. -/
theorem rollingWindowIsThe80WordSchedule : Obligations.RollingWindowIsThe80WordSchedule := by
  intro h src t
  refine ⟨fun ht => ?_, fun ht _ => usedWord_recurrence h src ht⟩
  rw [usedWord_early h src ht, loadWindow_getElem src t ht]

/-- Settles O9. -/
theorem rotlMovesBits : Obligations.RotlMovesBits := fun x n h1 h2 =>
  ⟨rotl_toNat x n, fun _ hi => rotl_getLsbD x h1 h2 hi, rotl_rotl_of_add_eq x (by decide) (by decide) rfl⟩

/-- Settles O13: the two forms differ in the order of the five-term sum alone. -/
theorem roundIsTheUnrolledForm : Obligations.RoundIsTheUnrolledForm := by
  intro t x
  have hsum : x.e + roundF t x.b x.c x.d + x.w.get (slot t) + roundK t + rotl x.a 5 =
      rotl x.a 5 + roundF t x.b x.c x.d + x.e + roundK t + x.w.get (slot t) := by ac_rfl
  rw [rotateRoles, roundInPlace, hsum]
  rfl

/-- Settles O14: a computation on one fixed block. -/
theorem compressOfPaddedAbc : Obligations.CompressOfPaddedAbc := by
  unfold Obligations.CompressOfPaddedAbc
  decide +kernel

end Sys2Proof
end

section
/-! SUPPORT. UPDATE at every fill: the bytes it puts in BUF (R131), the two words of COUNT (R133), and a run of UPDATEs, which takes in its
chunks joined (R136). -/

namespace Sys2Proof.Machine

/-! ## The fill and BUF -/

theorem Updated.fill {d : List Byte} {s t : State} (h : Updated d s t) : t.fill = (s.fill + d.length) % 64 :=
  h.fed.fill

/-- Before the fill, BUF is its valid prefix (R24). -/
theorem buf_getElem_of_lt_fill (s : State) {k : Nat} (hk : k < s.fill) (h64 : k < 64) :
    s.buf[k] = s.validBytes[k]'(by rwa [validBytes_length]) := by
  simp [State.validBytes]

/-- Bytes that do not fill the buffer stand behind the valid prefix (R131). -/
theorem Updated.validBytes_of_short {d : List Byte} {s t : State} (h : Updated d s t) (hfit : s.fill + d.length < 64) :
    t.validBytes = s.validBytes ++ d := by
  rw [h.valid, tailBytes_short _ (by rwa [List.length_append, validBytes_length])]

/-- One block's bytes are one compression (R135). -/
theorem compressStar_block (h : Hash) (d : List Byte) (hd : d.length = 64) :
    compressStar h d = compressHash h (window d) := by
  rw [compressStar_cons h d hd.ge, compressStar_short _ _ (by rw [List.length_drop, hd]; decide)]

/-! ## COUNT -/

/-- R133, on COUNT's value: the carry out of COUNT_HI is discarded. -/
theorem Updated.count_toNat {d : List Byte} {s t : State} (h : Updated d s t) :
    t.count.toNat = (s.count.toNat + 8 * d.length) % 2 ^ 64 := by
  rw [h.count, BitVec.toNat_add, BitVec.toNat_ofNat, Nat.add_mod_mod]

/-- The low word of a COUNT that n was added to (R21, R133). -/
theorem countLo_toNat_of_count {s t : State} {n : Nat} (h : t.count.toNat = (s.count.toNat + n) % 2 ^ 64) :
    t.countLo.toNat = (s.countLo.toNat + n) % 2 ^ 32 := by
  have hlo := t.countLo.isLt
  rw [count_toNat, count_toNat] at h
  omega

/-- The high word of a COUNT that n was added to takes the carry out of the low one (R21, R133). -/
theorem countHi_toNat_of_count {s t : State} {n : Nat} (h : t.count.toNat = (s.count.toNat + n) % 2 ^ 64) :
    t.countHi.toNat = (s.countHi.toNat + (s.countLo.toNat + n) / 2 ^ 32) % 2 ^ 32 := by
  have hlo := t.countLo.isLt
  have hhi := t.countHi.isLt
  rw [count_toNat, count_toNat] at h
  omega

/-! ## A run of UPDATEs -/

/-- The Context and the work of `t`, with the FSM, the ports and the draw number of `s`: what `Fed` is said of when commands were answered
on the way. -/
def State.atPortOf (t s : State) : State :=
  { t with fsm := s.fsm, inFlight := s.inFlight, input := s.input, responses := s.responses, draws := s.draws }

theorem lenFits_natCast {n : Nat} (h : n < 2 ^ 31) : lenFits n = true := by
  simp only [lenFits, Bool.and_eq_true, decide_eq_true_eq]
  omega

/-- One step on the UPDATE of a whole chunk, in READY or ACCUM (R132). -/
theorem step_updateCommand {s : State} {d : List Byte} {rest : List Input} (ho : s.Open)
    (hin : s.input = .command (updateCommand d.length d) :: rest) (hd : d.length < 2 ^ 31) :
    ∃ t, step s = .next t ∧ Fed d s (t.atPortOf s) ∧ t.fsm = .accum ∧ t.input = rest ∧
      t.responses = s.responses ++ [⟨.ok, []⟩] := by
  have hdec : (updateCommand d.length d).decode = .ok (.update d.length) := decode_commandOf (lenFits_natCast hd) nofun
  obtain ⟨u, he, hu⟩ := exec_update_of_legal (s := accept (updateCommand d.length d) rest s) ho (le_refl d.length)
  have hall : (accept (updateCommand d.length d) rest s).payload.take d.length = d := List.take_length
  rw [hall] at hu
  exact ⟨_, (step_of_decode_ok hin hdec).trans he,
    ⟨hu.hash, hu.valid, hu.count, hu.compressions, rfl, rfl, rfl, rfl, rfl⟩, hu.fsm, hu.input,
    by rw [respond_responses, hu.responses, accept_responses]⟩

/-- A run of UPDATEs takes in its chunks joined, wherever they were cut, and each is answered OK; what stands behind them at the port
waits (R136, R203). -/
theorem run_updateCommands {s : State} {ds : List (List Byte)} {rest : List Input} (ho : s.Open)
    (hin : s.input = (ds.map fun d => updateCommand d.length d).map .command ++ rest)
    (hds : ∀ d ∈ ds, d.length < 2 ^ 31) :
    ∃ t, (∀ k, Machine.run (ds.length + k) s = Machine.run k t) ∧ Fed ds.flatten s (t.atPortOf s) ∧ t.Open ∧
      t.input = rest ∧ t.responses = s.responses ++ List.replicate ds.length ⟨.ok, []⟩ := by
  induction ds generalizing s with
  | nil => exact ⟨s, fun k => by rw [List.length_nil, Nat.zero_add], Fed.refl s, ho, hin, (List.append_nil _).symm⟩
  | cons d ds ih =>
    obtain ⟨t, hstep, hfed, hacc, hrest, hok⟩ := step_updateCommand ho hin (hds d List.mem_cons_self)
    obtain ⟨u, hrun, hfeds, huo, hu, hoks⟩ := ih (.inr hacc) hrest fun e he => hds e (List.mem_cons_of_mem d he)
    have hfeds' : Fed ds.flatten (t.atPortOf s) (u.atPortOf s) :=
      ⟨hfeds.hash, hfeds.valid, hfeds.count, hfeds.compressions, rfl, rfl, rfl, rfl, rfl⟩
    refine ⟨u, fun k => ?_, hfed.trans hfeds', huo, hu, ?_⟩
    · rw [List.length_cons, Nat.add_right_comm, Machine.run, hstep]
      exact hrun k
    · rw [hoks, hok, List.append_assoc, List.length_cons, List.replicate_succ, List.singleton_append]

/-- With a host that presents those UPDATEs and nothing else, the run ends when they are answered (R136). -/
theorem run_presenting_updateCommands {s : State} {ds : List (List Byte)} (ho : s.Open)
    (hds : ∀ d ∈ ds, d.length < 2 ^ 31) :
    ∃ t, Machine.run ds.length (s.presenting (ds.map fun d => updateCommand d.length d)) = .next t ∧
      Fed ds.flatten s (t.atPortOf s) := by
  have hin (cs : List Command) : (s.presenting cs).input = cs.map .command ++ [] := (List.append_nil _).symm
  obtain ⟨t, hrun, h, -⟩ := run_updateCommands (s := s.presenting _) ho (hin _) hds
  exact ⟨t, hrun 0, h.hash, h.valid, h.count, h.compressions, rfl, rfl, rfl, rfl, rfl⟩

end Sys2Proof.Machine
end

section
/-! The statements about the stream feeder. -/

namespace Sys2Proof

open Machine

/-- Settles O44: INIT holds the empty message, and an UPDATE is an absorb, which extends what is held. -/
theorem contextHoldsTheMessage : Obligations.ContextHoldsTheMessage := by
  refine ⟨fun s => ?_, fun s m len ho hm hl => ?_⟩
  · obtain ⟨t, he, ht⟩ := exec_init_loaded s
    exact ⟨t, he, ht.holds⟩
  · obtain ⟨u, he, hu⟩ := exec_update_of_legal ho hl
    exact ⟨_, he, holds_congr (respond_sameContext .ok [] u) (hu.holds hm)⟩

/-- Settles O17. -/
theorem updateAbsorbsPayload : Obligations.UpdateAbsorbsPayload := by
  intro s len ho hl
  obtain ⟨u, he, hu⟩ := exec_update_of_legal ho hl
  have hlen : (s.payload.take len).length = len := List.length_take_of_le hl
  have hfill := hu.fill
  have hcount := hu.count
  have hwork := hu.compressions
  rw [hlen] at hfill hcount hwork
  exact ⟨respond .ok [] u, he, hu.hash, hu.valid, hfill, hcount, hu.fsm, by rw [respond_responses, hu.responses], rfl,
    hu.input, hwork⟩

/-- Settles O18: BUF before the new fill is the new valid prefix, which is the old one followed by the payload's bytes; a buffer that is
just full is one block. -/
theorem updateWritesBufAtTheFill : Obligations.UpdateWritesBufAtTheFill := by
  intro s len ho hl
  obtain ⟨u, he, hu⟩ := exec_update_of_legal ho hl
  have hlen : (s.payload.take len).length = len := List.length_take_of_le hl
  have hall : (s.validBytes ++ s.payload.take len).length = s.fill + len := by
    rw [List.length_append, validBytes_length, hlen]
  have hfill : u.fill = (s.fill + len) % 64 := hlen ▸ hu.fill
  have hwork : u.compressions = s.compressions + (s.fill + len) / 64 := hlen ▸ hu.compressions
  refine ⟨respond .ok [] u, he, fun hfit => ?_, fun hfull => ?_⟩
  · have hvalid := hu.validBytes_of_short (by omega)
    refine ⟨hu.hash.trans (compressStar_short _ _ (by omega)), hwork.trans (by omega), hfill.trans (by omega),
      fun k h64 hk => ?_, fun k h64 hn hk => ?_⟩
    · rw [respond_buf, buf_getElem_of_lt_fill u (by omega), List.getElem_of_eq hvalid,
        List.getElem_append_left (by rwa [validBytes_length]), ← buf_getElem_of_lt_fill s hk]
    · rw [respond_buf, buf_getElem_of_lt_fill u (by omega), List.getElem_of_eq hvalid,
        List.getElem_append_right (by simp)]
      simp
  · exact ⟨hu.hash.trans (compressStar_block _ _ (by omega)), hwork.trans (by omega), hfill.trans (by omega)⟩

/-- Settles O21: COUNT's value first, then its two words. -/
theorem countCarriesFromLowToHigh : Obligations.CountCarriesFromLowToHigh := by
  intro s len ho hl
  obtain ⟨u, he, hu⟩ := exec_update_of_legal ho hl
  have hcount := hu.count_toNat
  rw [List.length_take_of_le hl] at hcount
  exact ⟨_, he, countLo_toNat_of_count hcount, countHi_toNat_of_count hcount, hcount⟩

/-- Settles O45: either run takes in the same bytes from the same Context. -/
theorem chunkingIsInvisible : Obligations.ChunkingIsInvisible := by
  intro s ds es ho hcat hds hes
  obtain ⟨t, hrt, ht⟩ := run_presenting_updateCommands ho hds
  obtain ⟨u, hru, hu⟩ := run_presenting_updateCommands ho hes
  rw [hcat] at ht
  exact ⟨t, u, hrt, hru, ht.hash.trans hu.hash.symm, ht.count.trans hu.count.symm, ht.valid.trans hu.valid.symm⟩

end Sys2Proof
end

section
/-! SUPPORT. The arithmetic of the padding (R151), the digest read as words (R53), and what FINALIZE leaves of COUNT and the work
(R151, R153). -/

namespace Sys2Proof.Machine

/-! ## The padding's length -/

theorem padCount_mem_range (r : Nat) : 9 ≤ padCount r ∧ padCount r ≤ 72 := by
  rw [padCount, zeroCount]; omega

/-- The padding ends on a block's end (R151). -/
theorem add_padCount_mod (r : Nat) : (r + padCount r) % 64 = 0 := by
  rw [padCount, zeroCount]; omega

/-- The blocks that the padding completes: the length field still fits behind 55 bytes and the marker (R151). -/
theorem add_padCount_div {r : Nat} (hr : r < 64) : (r + padCount r) / 64 = if r ≤ 55 then 1 else 2 := by
  rw [padCount, zeroCount]; split <;> omega

theorem pad_length (m : List Byte) : (pad m).length = m.length + padCount m.length := by
  simp only [pad, padCount, List.length_append, List.length_replicate, List.length_singleton, lengthBytes_length]
  omega

/-! ## The digest -/

/-- Word i of the digest is word i of H (R53). -/
theorem be32_serialize (h : Hash) {i : Nat} (hi : i < 5) (h20 : (serialize h).length = 20) :
    be32 (serialize h)[4 * i] (serialize h)[4 * i + 1] (serialize h)[4 * i + 2] (serialize h)[4 * i + 3] = h[i] := by
  interval_cases i <;> exact be32_bytes _

/-! ## After the padding -/

@[simp] theorem count_finish (p : State) : (finish p).count = p.count :=
  count_congr (finish_countHi p) (finish_countLo p)

section
variable {s p : State} (h : Fed (padding s.fill s.count) s p)
include h

theorem Fed.count_of_padding : p.count = s.count + BitVec.ofNat 64 (8 * padCount s.fill) := by
  rw [h.count, padding_length]

/-- After the padding j is 0 (R153). -/
theorem Fed.fill_of_padding : p.fill = 0 := by
  rw [h.fill, padding_length, add_padCount_mod]

theorem Fed.compressions_of_padding : p.compressions = s.compressions + if s.fill ≤ 55 then 1 else 2 := by
  rw [h.compressions, padding_length, add_padCount_div (fill_lt s)]

end

end Sys2Proof.Machine
end

section
/-! The statements about the finalizer. -/

namespace Sys2Proof

open Machine

/-- Settles O24: FINALIZE feeds the padding, and then only answers. -/
theorem finalizeLeavesTheDigest : Obligations.FinalizeLeavesTheDigest := by
  intro s ho h8
  obtain ⟨p, he, hp⟩ := exec_finalize_of_aligned ho h8
  refine ⟨finish p, p.digest, he, ?responses, serialize_length p.h, fun i hi h20 => ?word, finish_fsm p, ?count, ?block,
    ?fill, finish_inFlight p, ?input⟩
  case responses => rw [finish_responses, hp.responses]
  case word => rw [finish_h]; exact (be32_serialize p.h hi h20).symm
  case count => rw [count_finish, hp.count_of_padding]
  case block => rw [count_finish, hp.count_mod_512_of_padding h8]
  case fill => rw [fill_congr (count_finish p), hp.fill_of_padding]
  case input => rw [finish_input, hp.input]

/-- Settles O25, by the arithmetic of the padding's length. -/
theorem finalizeCompressesOnceOrTwice : Obligations.FinalizeCompressesOnceOrTwice := by
  intro s ho h8
  obtain ⟨p, he, hp⟩ := exec_finalize_of_aligned ho h8
  obtain ⟨hlow, hhigh⟩ := padCount_mem_range s.fill
  refine ⟨add_padCount_mod s.fill, hlow, hhigh, finish p, he, ?_, ?_⟩
  · rw [count_finish, hp.count_of_padding, padCount, zeroCount, Nat.mod_eq_of_lt (fill_lt s)]
  · rw [finish_compressions, hp.compressions_of_padding]

/-- Settles O26: what is held, followed by the padding fed, is `pad(M)`. -/
theorem finalizeAnswersTheClosedForm : Obligations.FinalizeAnswersTheClosedForm := by
  intro s m ho hm
  exact ⟨by rw [pad_length, add_padCount_mod], exec_finalize_of_holds ho hm⟩

/-- Settles O27: of FINALIZE's three cases the other two answer a next state. -/
theorem finalizeFaultsOnlyWherePaddingNeverEnds : Obligations.FinalizeFaultsOnlyWherePaddingNeverEnds := by
  intro s
  constructor
  · intro h
    obtain ⟨-, he⟩ | ⟨-, -, p, -, he⟩ | ⟨ho, h8, -⟩ := execFinalize_cases s
    · cases h.symm.trans he
    · cases h.symm.trans he
    · exact ⟨ho, h8⟩
  · rintro ⟨ho, h8⟩
    exact exec_finalize_of_not_aligned ho h8

end Sys2Proof
end

section
/-! SUPPORT. Which headers the decoder rejects (R171), which commands answer an error (R174), the statuses of the FSM table in the order of
R175, and the idle core (R187). -/

namespace Sys2Proof

/-- R73 gives an OP to each of 0x01 to 0x03 and to no other value. -/
theorem op_reserved_iff (op : BitVec 8) : (op ≠ 0x01 ∧ op ≠ 0x02 ∧ op ≠ 0x03) ↔ (op = 0x00 ∨ 4 ≤ op.toNat) := by
  bv_omega

/-- The headers that R171 lists are those the decoder rejects. -/
theorem decode_error_iff {hdr : BitVec 64} {n : Nat} :
    (∃ x, decode hdr n = .error x) ↔
      (hdrRsvd hdr ≠ 0 ∨ (hdrOp hdr = 0x00 ∨ 4 ≤ (hdrOp hdr).toNat) ∨
        ((hdrOp hdr = 0x01 ∨ hdrOp hdr = 0x03) ∧ (hdrLen hdr ≠ 0 ∨ n ≠ 0))) := by
  rw [← op_reserved_iff]
  constructor
  · rintro ⟨x, hx⟩
    exact decode_error hx
  · intro hbad
    cases hd : decode hdr n with
    | error x => exact ⟨x, rfl⟩
    | ok i =>
      obtain ⟨hrsvd, ⟨-, hop, hlen, hn⟩ | ⟨-, hop⟩ | ⟨-, hop, hlen, hn⟩⟩ := decode_ok hd
      · simp [hrsvd, hop, hlen, hn] at hbad
      · simp [hrsvd, hop] at hbad
      · simp [hrsvd, hop, hlen, hn] at hbad

namespace Machine

/-- A command that answers ERR_ILLEGAL is one that does not decode (R171). -/
theorem Rejected.decode_error_of_errIllegal {c : Command} {s : State} (why : Rejected c s .errIllegal) :
    ∃ x, c.decode = .error x := by
  cases why with
  | illegal hd => exact ⟨_, hd⟩

/-- After `rs`, a single further response is determined by the responses sent. -/
theorem response_unique {t : State} {rs : List Response} {r r' : Response} (h : t.responses = rs ++ [r])
    (h' : t.responses = rs ++ [r']) : r = r' :=
  List.singleton_inj.mp (List.append_cancel_left (h.symm.trans h'))

/-- A command that answers an error was rejected for it, and did nothing else (R174). -/
theorem Executed.rejected_of_status_ne_ok {c : Command} {s t : State} {r : Response} (h : Executed c s t)
    (hr : t.responses = s.responses ++ [r]) (hne : r.status ≠ .ok) :
    Rejected c s r.status ∧ r.digest = [] ∧ t = raise r.status s := by
  have not_ok {dg : List Byte} : t.responses ≠ s.responses ++ [⟨.ok, dg⟩] := by
    intro hok
    obtain rfl := response_unique hr hok
    exact hne rfl
  cases h with
  | @rejected e why =>
    obtain rfl := response_unique hr (raise_responses e s)
    exact ⟨why, rfl, rfl⟩
  | loaded hd ht => exact absurd ht.answered not_ok
  | updated hd ho hl hu => exact absurd (by rw [respond_responses, hu.responses]) not_ok
  | finalized hd ho h8 hp => exact absurd (by rw [finish_responses, hp.responses]) not_ok

/-- FINALIZE's statuses in the FSM table (R27). -/
theorem fsmTable_finalize_status (f : Fsm) (n : Nat) :
    (fsmTable f .finalize n).2 = if f = .uninit ∨ f = .final then .errState else .ok := by
  cases f <;> rfl

/-- UPDATE's statuses in the FSM table: FSM is looked at before len (R27, R175). -/
theorem fsmTable_update_status (f : Fsm) (len : Int) (n : Nat) :
    (fsmTable f (.update len) n).2 =
      if f = .uninit ∨ f = .final then .errState else if len < 0 ∨ (n : Int) < len then .errArg else .ok := by
  have hlegal : (0 ≤ len ∧ len ≤ (n : Int)) ↔ ¬(len < 0 ∨ (n : Int) < len) := by omega
  cases f with
  | uninit => rfl
  | final => rfl
  | ready => simp only [fsmTable, hlegal, ite_not, apply_ite Prod.snd, reduceCtorEq, or_self, if_false]
  | accum => simp only [fsmTable, hlegal, ite_not, apply_ite Prod.snd, reduceCtorEq, or_self, if_false]

/-- With nothing at the port every step leaves the state (R187). -/
theorem run_idle {s : State} (hin : s.input = []) (k : Nat) : Machine.run k s = .next s := by
  induction k with
  | zero => rfl
  | succ k ih => simp only [Machine.run, step_idle hin, ih]

end Machine

end Sys2Proof
end

section
/-! The statements about the errors and the idle core. -/

namespace Sys2Proof

open Machine

/-- Settles O7: the headers listed are those the decoder rejects, and ERR_ILLEGAL is answered for nothing else. -/
theorem illegalCommandAnswersErrIllegal : Obligations.IllegalCommandAnswersErrIllegal := by
  intro s c rest hin
  constructor
  · intro hbad
    obtain ⟨x, hx⟩ := decode_error_iff.mpr hbad
    exact step_of_decode_error hin hx
  · intro t ht hr
    obtain ⟨why, -, -⟩ := (executed_of_step hin ht).rejected_of_status_ne_ok hr (by decide)
    exact decode_error_iff.mp why.decode_error_of_errIllegal

/-- Settles O32: a command that decodes answers its cell of the FSM table, whose statuses stand in this order. -/
theorem errorsHaveThePriority : Obligations.ErrorsHaveThePriority := by
  intro s c rest h hin
  obtain ⟨t, dg, ht, hok, herr⟩ := fsmFollowsTheTable s c rest h hin
  cases hd : c.decode with
  | error x => exact ⟨t, [], ht, (herr x hd).2⟩
  | ok i =>
    obtain ⟨-, hr, -⟩ := hok i hd
    refine ⟨t, dg, ht, ?_⟩
    cases i with
    | init => rw [hr, fsmTable_init]
    | update len => rw [hr, fsmTable_update_status]
    | finalize => rw [hr, fsmTable_finalize_status]

/-- Settles O33: such a command was rejected, and a rejected command only answers. -/
theorem errorChangesNoState : Obligations.ErrorChangesNoState := by
  intro s t c rest r hin ht hr hne
  obtain ⟨-, hdigest, rfl⟩ := (executed_of_step hin ht).rejected_of_status_ne_ok hr hne
  exact ⟨raise_accept_sameContext _ c rest s, hdigest, raise_compressions _ _⟩

/-- Settles O23. -/
theorem badLengthAnswersErrArg : Obligations.BadLengthAnswersErrArg := fun s _ ho hl =>
  ⟨_, exec_update_of_bad_length ho hl, raise_errored .errArg s⟩

/-- Settles O30. -/
theorem wrongStateAnswersErrState : Obligations.WrongStateAnswersErrState := by
  intro s hf
  have hc : ¬ s.Open := (not_open_iff s).mpr hf
  exact ⟨fun len => ⟨_, exec_of_not_open nofun hc, raise_errored .errState s⟩,
    ⟨_, exec_of_not_open nofun hc, raise_errored .errState s⟩⟩

/-- Settles O37, by the number of steps. -/
theorem idleCoreHoldsItsState : Obligations.IdleCoreHoldsItsState := fun _ k hin => run_idle hin k

end Sys2Proof
end

section
/-! SUPPORT. Runs of more than one step: after a step, from a safe state (R207), before any INIT (R202), and the steps of a whole message
(R203). -/

namespace Sys2Proof

open Machine

/-! ## Runs -/

theorem run_succ_of_next {s t : State} (h : step s = .next t) (k : Nat) : Machine.run (k + 1) s = Machine.run k t := by
  rw [Machine.run, h]

/-- No step from a safe state stops, and none leaves the safe states (R207). -/
theorem Safe.run {s : State} (h : Safe s) (k : Nat) : ∃ t, Machine.run k s = .next t ∧ Safe t := by
  induction k generalizing s with
  | zero => exact ⟨s, rfl, h⟩
  | succ k ih =>
    obtain ⟨u, hstep, hu⟩ := safeStatesStepToSafeStates s h
    obtain ⟨t, hrun, ht⟩ := ih hu
    exact ⟨t, (run_succ_of_next hstep k).trans hrun, ht⟩

/-! ## Before INIT -/

theorem SameContext.trans {s t u : State} (h : SameContext s t) (k : SameContext t u) : SameContext s u :=
  ⟨k.hash.trans h.hash, k.countHi.trans h.countHi, k.countLo.trans h.countLo, k.buf.trans h.buf, k.fsm.trans h.fsm⟩

namespace Machine

/-- The status of a command that is not INIT, in UNINIT (R27, R171, R202). -/
def Command.statusBeforeInit (c : Command) : Status :=
  match c.decode with
  | .ok _ => .errState
  | .error _ => .errIllegal

/-- In UNINIT every command but INIT is rejected (R202). -/
theorem rejected_of_uninit {c : Command} {s : State} (hf : s.fsm = .uninit) (hc : c.decode ≠ .ok .init) :
    Rejected c s c.statusBeforeInit := by
  unfold Command.statusBeforeInit
  cases hd : c.decode with
  | ok i => exact .wrongState hd (fun hi => hc (by rw [hd, hi])) ((not_open_iff s).mpr (.inl hf))
  | error x => exact .illegal hd

/-- A rejected command only answers its error (R174). -/
theorem step_of_rejected {c : Command} {rest : List Input} {s : State} {e : Status} (hin : s.input = .command c :: rest)
    (why : Rejected c (accept c rest s) e) : step s = .next (raise e (accept c rest s)) := by
  rw [step_command hin, execute_of_rejected why]

/-- From UNINIT, commands without an INIT are rejected one by one, and the Context stays (R202). -/
theorem run_before_init {s : State} {cs : List Command} (hf : s.fsm = .uninit) (hin : s.input = cs.map .command)
    (hcs : ∀ c ∈ cs, c.decode ≠ .ok .init) :
    ∃ t, Machine.run cs.length s = .next t ∧ SameContext s t ∧
      t.responses = s.responses ++ cs.map fun c => ⟨c.statusBeforeInit, []⟩ := by
  induction cs generalizing s with
  | nil => exact ⟨s, rfl, ⟨rfl, rfl, rfl, rfl, rfl⟩, (List.append_nil _).symm⟩
  | cons c cs ih =>
    obtain ⟨hc, hcs⟩ := List.forall_mem_cons.mp hcs
    have hstep := step_of_rejected hin (rejected_of_uninit hf hc)
    obtain ⟨t, hrun, hsame, hr⟩ := ih (s := raise c.statusBeforeInit (accept c _ s)) hf rfl hcs
    refine ⟨t, (run_succ_of_next hstep _).trans hrun, (raise_accept_sameContext _ c _ s).trans hsame, ?_⟩
    rw [hr, raise_responses, accept_responses, List.append_assoc, List.map_cons, List.singleton_append]

/-! ## A whole message -/

/-- One step on INIT loads the empty message, whatever stood there (R130). -/
theorem step_init {s : State} {rest : List Input} (hin : s.input = .command (Command.of .init []) :: rest) :
    ∃ t, step s = .next t ∧ Loaded (accept (Command.of .init []) rest s) t := by
  rw [step_of_decode_ok hin (decode_commandOf rfl fun _ => rfl)]
  exact exec_init_loaded _

/-- A FINALIZE that answers in READY or ACCUM leaves FSM at FINAL (R27, R150). -/
theorem fsm_of_exec_finalize {s t : State} (ho : s.Open) (h : exec .finalize s = .next t) : t.fsm = .final := by
  obtain ⟨hc, -⟩ | ⟨-, -, p, -, he⟩ | ⟨-, -, he⟩ := execFinalize_cases s
  · exact absurd ho hc
  · obtain rfl := Host.Outcome.next.inj (h.symm.trans he)
    exact finish_fsm p
  · cases h.symm.trans he

/-- One step on FINALIZE answers the closed form over the message held, and leaves FSM at FINAL (R150, R154). -/
theorem step_finalize_of_holds {s : State} {m : List Byte} {rest : List Input} (ho : s.Open) (hm : Holds s m)
    (hin : s.input = .command (Command.of .finalize []) :: rest) :
    ∃ t, step s = .next t ∧ t.responses = s.responses ++ [⟨.ok, sha1 m⟩] ∧ t.fsm = .final := by
  rw [step_of_decode_ok hin (decode_commandOf rfl fun _ => rfl)]
  obtain ⟨t, he, hr⟩ :=
    exec_finalize_of_holds (s := accept _ rest s) ho (holds_congr (accept_sameContext _ rest s) hm)
  exact ⟨t, he, hr, fsm_of_exec_finalize (s := accept _ rest s) ho he⟩

/-- What holds of the Context holds wherever the ports and FSM stand (R135). -/
theorem Holds.of_atPortOf {s t : State} {m : List Byte} (h : Holds (t.atPortOf s) m) : Holds t m :=
  ⟨h.count, h.hash, h.valid⟩

end Machine

end Sys2Proof
end

section
/-! The statements about reset, runs from reset, and whole sequences of commands. -/

namespace Sys2Proof

open Machine

/-- Settles O36. -/
theorem resetAbandonsTheCommand : Obligations.ResetAbandonsTheCommand := fun s _ rest hin =>
  ⟨_, step_reset hin, resetEvent_fsm rest s, resetEvent_inFlight rest s, resetEvent_responses rest s,
    resetEvent_input rest s⟩

/-- Settles O41: the state after reset is safe, and so is every state that a run comes to from a safe one. -/
theorem everyRunFromResetIsSafe : Obligations.EveryRunFromResetIsSafe := fun es k =>
  (resetIsSafe es).1.run k

/-- Settles O35, by the list of commands: each is rejected, which keeps FSM at UNINIT for the next. -/
theorem nothingWorksBeforeInit : Obligations.NothingWorksBeforeInit := by
  intro s cs hf hcs
  obtain ⟨t, hrun, hsame, hr⟩ := run_before_init (s := s.presenting cs) hf rfl hcs
  refine ⟨t, hrun, ⟨hsame.hash, hsame.countHi, hsame.countLo, hsame.buf, hsame.fsm⟩, hr.trans ?_⟩
  refine congrArg (s.responses ++ ·) (List.map_congr_left fun c _ => ?_)
  unfold Command.statusBeforeInit
  cases c.decode <;> rfl

/-- Settles O43, by what the command did. -/
theorem workPerCommand : Obligations.WorkPerCommand := by
  intro s c rest h hin
  obtain ⟨t, ht, he⟩ := h.step_executed hin
  cases he with
  | @rejected e why => exact ⟨_, ⟨e, []⟩, ht, rfl, by rw [if_pos why.ne_ok]; rfl⟩
  | loaded hd hl => exact ⟨_, ⟨.ok, []⟩, ht, hl.answered, by simp [hd, hl.compressions]⟩
  | @updated l u hd ho hl hu =>
    have hwork := hu.compressions
    rw [List.length_take_of_le hl] at hwork
    refine ⟨_, ⟨.ok, []⟩, ht, by rw [respond_responses, hu.responses, accept_responses], ?_⟩
    simp only [hd, ne_eq, not_true_eq_false, if_false, Int.toNat_natCast]
    exact hwork
  | @finalized p hd ho h8 hp =>
    refine ⟨_, ⟨.ok, p.digest⟩, ht, by rw [finish_responses, hp.responses, accept_responses], ?_⟩
    simp only [hd, ne_eq, not_true_eq_false, if_false, finish_compressions]
    exact hp.compressions_of_padding

/-- Settles O46: INIT loads the empty message, the UPDATEs extend it by their chunks joined, and FINALIZE answers its digest. -/
theorem messageSequenceGivesTheDigest : Obligations.MessageSequenceGivesTheDigest := by
  intro s ds hds
  have hin : (s.presenting (Command.of .init [] :: ds.map (fun d => updateCommand d.length d) ++
        [Command.of .finalize []])).input = .command (Command.of .init []) ::
      ((ds.map fun d => updateCommand d.length d).map .command ++ [.command (Command.of .finalize [])]) :=
    List.map_append
  obtain ⟨a, hinit, ha⟩ := step_init hin
  obtain ⟨b, hrun, hfed, hbo, hbin, hbr⟩ := run_updateCommands (.inl ha.fsm) ha.input hds
  have hb : Holds b ds.flatten := (hfed.holds ha.holds).of_atPortOf
  obtain ⟨t, hfinal, htr, htf⟩ := step_finalize_of_holds hbo hb hbin
  refine ⟨t, ?_, ?_, htf⟩
  · calc Machine.run (ds.length + 2) _
      _ = Machine.run (ds.length + 1) a := run_succ_of_next hinit _
      _ = Machine.run 1 b := hrun 1
      _ = .next t := run_succ_of_next hfinal 0
  · rw [htr, hbr, ha.answered, List.replicate_succ, List.append_assoc, List.append_assoc, List.append_assoc]
    rfl

end Sys2Proof
end
